-- ==== Sys2Proof/Word.lean ====
section
/-! DEFINITION. The two word sizes of the codec (spec/00_scope.md R7, R8): bytes and 16-bit fields, all unsigned. -/

namespace Sys2Proof

/-- An unsigned byte, bit 0 least significant (R8). -/
abbrev Byte := BitVec 8

/-- An unsigned 16-bit value: a vendor id or a raw command id (R7, R8). -/
abbrev Half := BitVec 16

end Sys2Proof
end

