-- ==== Sys2Proof/Machine/Constants.lean ====
section
/-! DEFINITION. The codec's fixed constants (spec/00_scope.md R5) and the capacity this hardware takes (R6);
UNVERIFIED as the spec says (93 U9, log entry 14). -/

namespace Sys2Proof.Machine

/-- `SYNC` (R5, R52): the frame's first byte. -/
abbrev syncByte : Byte := 0xFF#8

/-- `VERSION` (R5, R53): the second byte written by the encoder. -/
abbrev versionByte : Byte := 0x01#8

/-- `HDR` (R5): the bytes before the payload, and the smallest frame. -/
abbrev hdrLen : Nat := 8

/-- `MAXPAY` (R5, R136): the largest payload the encoder accepts. -/
abbrev maxPayload : Nat := 254

/-- `OFF_FLAGS` (R5): the offset of the flags byte. -/
abbrev offFlags : Nat := 2

/-- `OFF_LEN` (R5): the offset of the payload-length byte. -/
abbrev offLen : Nat := 3

/-- `CAP` of this hardware (R6, 92_eei_decisions.md D1). -/
abbrev capBytes : Nat := 270

end Sys2Proof.Machine
end

