-- ==== Sys2Proof/Machine/Flags.lean ====
section
/-! DEFINITION. The values computed from the flags byte, the raw command id and a byte sequence: checksum,
checksum-present bit, frame length, acknowledgement, command, status (spec/40_packet_helpers.md R71, R74 to R77). -/

namespace Sys2Proof.Machine

/-- XOR8 (R71): the running exclusive-or, starting from `0x00`. -/
def xor8 (s : List Byte) : Byte := s.foldl (fun acc b => acc ^^^ b) 0x00#8

/-- Flags bit 0, `CKBIT` (R5, R54): the frame carries a checksum byte. -/
def ckPresent (f : Byte) : Bool := f.getLsbD 0

/-- FRAMELEN (R74): `zext_9(n) + 8 + zext_9(f[0])`, in 9 bits. -/
def frameLen (f n : Byte) : BitVec 9 := n.setWidth 9 + 8#9 + (BitVec.ofBool (ckPresent f)).setWidth 9

/-- ACKOF (R75): `(raw & 0x8000) != 0`. -/
def ackOf (raw : Half) : Bool := (raw &&& 0x8000#16) != 0#16

/-- CMDOF (R76): `raw & 0x7FFF`, the bits 14 to 0. -/
def cmdOf (raw : Half) : BitVec 15 := (raw &&& 0x7FFF#16).setWidth 15

/-- STATUSOF (R77): the first payload byte of an acknowledgement. -/
def statusOf (ack : Bool) (payload : List Byte) : Option Byte := if ack then payload.head? else none

end Sys2Proof.Machine
end

