-- ==== Sys2Proof/Machine/Operands.lean ====
section
/-! DEFINITION. How the wire's bytes and the operations' fields are made of each other: big-endian 16-bit
fields, the flags byte, the raw command id, and the frame layout (spec/30_encoding.md R50 to R59,
spec/40_packet_helpers.md R72, R73). -/

namespace Sys2Proof.Machine

/-- BE16.GET (R72): the byte at the lower wire offset is the high byte. -/
def be16Get (hi lo : Byte) : Half := (hi.setWidth 16 <<< 8) ||| lo.setWidth 16

/-- BE16.PUT (R73): `[v[15:8], v[7:0]]`. -/
def be16Put (v : Half) : List Byte := [(v >>> 8).setWidth 8, v.setWidth 8]

/-- The flags byte (R54): reserved bits 7 to 1, and bit 0 "checksum present". -/
def flagsByte (reserved : BitVec 7) (ck : Bool) : Byte := reserved ++ BitVec.ofBool ck

/-- The reserved bits 7 to 1 of a flags byte (R54). -/
def reservedOf (f : Byte) : BitVec 7 := f.extractLsb' 1 7

/-- The raw command id (R57): bit 15 is the acknowledgement flag, bits 14 to 0 the command. -/
def rawOf (ack : Bool) (command : BitVec 15) : Half := BitVec.ofBool ack ++ command

/-- The frame layout of R50, offsets 0 to `8+N-1`, then `tail` (the checksum byte or nothing). -/
def wireFrame (version flags : Byte) (vendor raw : Half) (payload tail : List Byte) : List Byte :=
  [syncByte, version, flags, BitVec.ofNat 8 payload.length] ++ be16Put vendor ++ be16Put raw ++ payload ++ tail

end Sys2Proof.Machine
end

