-- ==== Sys2Proof/Config.lean ====
section
/-! DEFINITION. What an implementation fixes: the two parameters the spec leaves to the model
(spec/92_eei_decisions.md D1 and D8). Every shared operation takes a `Config`; the meanings of the
instructions take `Config.hw`. No result of this hardware is undefined, so there is no free value. -/

namespace Sys2Proof

/-- The implementation parameters. -/
structure Config where
  /-- `CAP` (00_scope.md R6): the capacity of the staging buffer in bytes. -/
  cap : Nat
  /-- `LEN255_ACCEPT` (92_eei_decisions.md D8, 93 U3): whether DECODE takes a length byte of 255. -/
  len255Accept : Bool
  deriving DecidableEq, Repr

/-- This hardware: `CAP = 270` (R6, D1, log entry 1), length byte 255 accepted (R55, D8, log entry 7). -/
abbrev Config.hw : Config := { cap := Machine.capBytes, len255Accept := true }

/-- The premise `P-CAP` (70_reset_and_hazards.md R186): `CAP >= 270`. -/
abbrev Config.Conforming (cfg : Config) : Prop := 270 ≤ cfg.cap

end Sys2Proof
end

