-- ==== Sys2Proof/Syntax.lean ====
section
/-! DEFINITION. The operations of the block: one constructor per row of spec/opcode_table.json
(spec/30_encoding.md R62), and the operations that have no opcode bits as the host names them. -/

namespace Sys2Proof

/-- One constructor per row of the opcode table. -/
inductive Instr where
  /-- FRAME.CMD (R50, R64): a request frame without checksum. -/
  | frameCmd (version : Byte) (reserved : BitVec 7) (vendor : Half) (command : BitVec 15) (payload : List Byte)
  /-- FRAME.CMD.CK: a request frame with its checksum byte. -/
  | frameCmdCk (version : Byte) (reserved : BitVec 7) (vendor : Half) (command : BitVec 15) (payload : List Byte)
      (checksum : Byte)
  /-- FRAME.ACK: an acknowledgement frame without checksum. -/
  | frameAck (version : Byte) (reserved : BitVec 7) (vendor : Half) (command : BitVec 15) (payload : List Byte)
  /-- FRAME.ACK.CK: an acknowledgement frame with its checksum byte. -/
  | frameAckCk (version : Byte) (reserved : BitVec 7) (vendor : Half) (command : BitVec 15) (payload : List Byte)
      (checksum : Byte)
  /-- DROP (R91): a stray byte while idle. -/
  | drop (b : Byte)
  /-- SYNC (R92): the byte `0xFF` while idle. -/
  | sync
  /-- STAGE (R93): store a byte that is neither the flags nor the length byte. -/
  | stage (b : Byte)
  /-- STAGE.FLAGS (R94): store and remember the flags byte. -/
  | stageFlags (b : Byte)
  /-- STAGE.LEN (R95): store the length byte and fix the frame length. -/
  | stageLen (b : Byte)
  /-- ABORT (R96): the declared frame does not fit the buffer. -/
  | abort (b : Byte)
  /-- COMPLETE.EMIT (R98): the completing byte, and DECODE succeeds. -/
  | completeEmit (b : Byte)
  /-- COMPLETE.FAIL (R99): the completing byte, and DECODE fails. -/
  | completeFail (b : Byte)
  /-- GUARD (R100): the defensive capacity check. -/
  | guard (b : Byte)
  /-- STEP (R90): process one input byte. -/
  | step (b : Byte)
  /-- FEED (R101): process a chunk of bytes. -/
  | feed (chunk : List Byte)
  /-- SRST (R102): explicit reset to idle. -/
  | srst
  /-- DECODE (R120): single-frame decode. -/
  | decode (frame : List Byte)
  /-- ENCODE (R135): the frame serializer. -/
  | encode (vendor : Half) (command : Half) (payload : List Byte) (flags : Byte)
  /-- XOR8 (R71). -/
  | xor8 (s : List Byte)
  /-- BE16.GET (R72). -/
  | be16Get (hi lo : Byte)
  /-- BE16.PUT (R73). -/
  | be16Put (v : Half)
  /-- FRAMELEN (R74). -/
  | frameLen (f n : Byte)
  /-- ACKOF (R75). -/
  | ackOf (raw : Half)
  /-- CMDOF (R76). -/
  | cmdOf (raw : Half)
  /-- STATUSOF (R77). -/
  | statusOf (ack : Bool) (payload : List Byte)
  /-- MKPACKET (R78). -/
  | mkPacket (vendor raw : Half) (flags : Byte) (payload : List Byte)
  deriving DecidableEq, Repr

/-- The operations selected "by which interface the host uses, with no opcode bits" (R62): STEP, the four
host operations, and the helpers, which are "usable at any time" (70_reset_and_hazards.md R172). -/
inductive Operation where
  | step (b : Byte)
  | feed (chunk : List Byte)
  | srst
  | decode (frame : List Byte)
  | encode (vendor : Half) (command : Half) (payload : List Byte) (flags : Byte)
  | xor8 (s : List Byte)
  | be16Get (hi lo : Byte)
  | be16Put (v : Half)
  | frameLen (f n : Byte)
  | ackOf (raw : Half)
  | cmdOf (raw : Half)
  | statusOf (ack : Bool) (payload : List Byte)
  | mkPacket (vendor raw : Half) (flags : Byte) (payload : List Byte)
  deriving DecidableEq, Repr

/-- One host transaction (92_eei_decisions.md D6). -/
inductive Request where
  /-- A byte offered at the decoder's input: one STEP, whose arm the state selects (R62, R90). -/
  | byte (b : Byte)
  /-- A byte sequence offered for single-frame decode, read by its header (R62, R64, R120). -/
  | frame (bytes : List Byte)
  /-- An operation called at its own interface (R62). -/
  | call (op : Operation)
  deriving DecidableEq, Repr

end Sys2Proof
end

