-- ==== Sys2Proof/Machine/State.lean ====
section
/-! DEFINITION. The state of one codec, as plain data (spec/10_state.md), the values its operations hand to the
host, and the state after reset (R23). -/

namespace Sys2Proof.Machine

/-- A Decoded Packet (40_packet_helpers.md R70): a value, seven fields. -/
structure Packet where
  vendorId : Half
  rawCommandId : Half
  command : BitVec 15
  ack : Bool
  flags : Byte
  payload : List Byte
  status : Option Byte
  deriving DecidableEq, Repr

/-- The one error ENCODE can return (43_frame_encoder.md R136); no code, one constructor (92_eei_decisions.md D14, log
entry 12). -/
inductive EncodeError where
  | payloadTooLarge
  deriving DecidableEq, Repr

/-- What an operation hands to the host (70_reset_and_hazards.md R184, 92_eei_decisions.md D6). -/
inductive Result where
  /-- SRST returns nothing; nothing has run yet. -/
  | nothing
  /-- STEP and its arms: the packet emitted in this step, or none (R90). -/
  | emitted (out : Option Packet)
  /-- FEED: the packets whose frames completed in the chunk, in order (R101). -/
  | packets (outs : List Packet)
  /-- DECODE and the frame kinds: a packet or none (R120). -/
  | decoded (out : Option Packet)
  /-- ENCODE: a frame, or the error PayloadTooLarge (R135, R136). -/
  | encoded (out : Except EncodeError (List Byte))
  /-- XOR8 (R71). -/
  | byte (v : Byte)
  /-- BE16.GET (R72). -/
  | half (v : Half)
  /-- BE16.PUT (R73): high byte first. -/
  | bytes (v : List Byte)
  /-- FRAMELEN (R74): 8 .. 264. -/
  | length (v : BitVec 9)
  /-- ACKOF (R75). -/
  | flag (v : Bool)
  /-- CMDOF (R76). -/
  | command (v : BitVec 15)
  /-- STATUSOF (R77). -/
  | status (v : Option Byte)
  /-- MKPACKET (R78). -/
  | packet (v : Packet)
  deriving DecidableEq, Repr

/-- The contents of `BUF` (10_state.md R14, 20_memory.md R30): the cells that differ from `unlistedByte`, by
rising offset. DESIGN CHOICE, safe (log entry 16). -/
abbrev Memory := List Host.Cell

/-- What a cell of `BUF` reads as while nothing is listed for it. DESIGN CHOICE, unsafe (log entry 3): R23 leaves
the contents at power-on unspecified ("a model may draw them or fix them"); no output depends on it (R22). -/
abbrev unlistedByte : Byte := 0x00#8

/-- One codec instance. `cursor`, `expected`, `flags` and `buf` are the spec's whole mutable state (10_state.md
R10); `inbox` and `result` are the model's own ends of the host interface (log entries 4 and 5). -/
structure State where
  /-- `CURSOR` (R11): the number of bytes staged, 0 while idle. DESIGN CHOICE, safe: a Nat (log entry 2). -/
  cursor : Nat
  /-- `EXPECTED` (R12): UNKNOWN, or a total frame length; an option of 9 bits (92_eei_decisions.md D2, log entry
  11). -/
  expected : Option (BitVec 9)
  /-- `FLAGS` (R13): the flags byte staged last. -/
  flags : Byte
  /-- `BUF` (R14): the staging buffer. -/
  buf : Memory
  /-- The host's pending requests, oldest first. DESIGN CHOICE, safe (log entry 4). -/
  inbox : List Request
  /-- What the operation that ran last handed to the host. DESIGN CHOICE, safe (log entry 5). -/
  result : Result
  deriving DecidableEq, Repr

/-- The faults. There are none: "No operation of the block can trap, hang or leave the state undefined"
(60_exceptions.md R163). -/
inductive Fault where
  deriving DecidableEq, Repr

/-- The refusals. -/
inductive Refusal where
  /-- An instruction without a meaning in `exec`: raised by no arm (safe). -/
  | notModelled (mnemonic : String)
  deriving DecidableEq, Repr

/-- Power-on reset, the creation of a decoder (R23, R170): idle, EXPECTED unknown, FLAGS `0x00`
(92_eei_decisions.md D4, log entry 15), no cell of BUF listed, no request pending, nothing handed out. -/
def State.reset : State :=
  { cursor := 0, expected := none, flags := 0x00#8, buf := [], inbox := [], result := .nothing }

end Sys2Proof.Machine
end

