-- ==== Sys2Proof/Machine/Ops.lean ====
section
/-! DEFINITION. The named operations the meanings share: reading and writing `BUF` (spec/20_memory.md), the return
to idle (spec/60_exceptions.md R161), the packet builder, single-frame decode, the encoder, the storing part of a
step, the completion test, STEP and FEED. -/

namespace Sys2Proof.Machine

/-- The contents of one cell (R37). -/
def Memory.read : Memory → Nat → Byte
  | [], _ => unlistedByte
  | (k, w) :: m, a => if a = k then w else Memory.read m a

/-- `BUF[a] <- v` (R37), keeping the canonical form: a cell that reads as an unlisted one is not listed. -/
def Memory.write : Memory → Nat → Byte → Memory
  | [], a, v => if v = unlistedByte then [] else [(a, v)]
  | (k, w) :: m, a, v =>
    if a < k then (if v = unlistedByte then (k, w) :: m else (a, v) :: (k, w) :: m)
    else if a = k then (if v = unlistedByte then m else (a, v) :: m)
    else (k, w) :: Memory.write m a v

/-- The `n` bytes from offset `a` on, lowest offset first: `MemRead(a, n)` (00_scope.md R9, 20_memory.md R37). -/
def Memory.readRange (m : Memory) : Nat → Nat → List Byte
  | _, 0 => []
  | a, n + 1 => Memory.read m a :: Memory.readRange m (a + 1) n

/-- Canonical from offset `lo` on: offsets strictly rising, no cell listed that reads as an unlisted one. -/
def Memory.wfFrom : Nat → Memory → Bool
  | _, [] => true
  | lo, (k, w) :: m => decide (lo ≤ k) && (w != unlistedByte) && Memory.wfFrom (k + 1) m

/-- The canonical form of memory. DESIGN CHOICE, safe (log entry 16): the spec gives BUF no representation. -/
def Memory.wf (m : Memory) : Bool := Memory.wfFrom 0 m

/-- `MemWrite(off, 1, b)`: a store inside the buffer; outside it nothing is stored (R36: "every written offset is
within 0 .. CAP-1"). -/
def storeByte (cfg : Config) (off : Nat) (b : Byte) (s : State) : State :=
  if off < cfg.cap then { s with buf := s.buf.write off b } else s

/-- The staged bytes, `MemRead(0, CURSOR)` (R35, R97). -/
def staged (s : State) : List Byte := s.buf.readRange 0 s.cursor

/-- `idle = (CURSOR = 0)` (10_state.md R18). -/
def isIdle (s : State) : Bool := s.cursor == 0

/-- `staging = (CURSOR > 0)` (10_state.md R18). -/
def isStaging (s : State) : Bool := decide (0 < s.cursor)

/-- `EXP_VALID` (10_state.md R12, R18). -/
def expValid (s : State) : Bool := s.expected.isSome

/-- What every condition and every completed frame changes (60_exceptions.md R161, 70_reset_and_hazards.md R171),
and the whole of SRST (R102): `CURSOR <- 0 ; EXPECTED <- UNKNOWN`. The block has no other entry or return. -/
def toIdle (s : State) : State := { s with cursor := 0, expected := none }

/-- Hand a value to the host. -/
def deliver (r : Result) (s : State) : State := { s with result := r }

/-- MKPACKET (R78). -/
def mkPacket (vendor raw : Half) (flags : Byte) (payload : List Byte) : Packet :=
  { vendorId := vendor, rawCommandId := raw, command := cmdOf raw, ack := ackOf raw, flags := flags,
    payload := payload, status := statusOf (ackOf raw) payload }

/-- Whether the configuration turns a length byte away (92_eei_decisions.md D8: only 255, only with
`LEN255_ACCEPT` off; 95_test_vectors.md V-DEC-10 puts the test in DECODE). DEDUCED, unsafe with the switch off
(log entry 7). -/
def lengthRefused (cfg : Config) (n : Byte) : Bool := !cfg.len255Accept && n == 0xFF#8

/-- DECODE (R120): too short (R121), length mismatch (R122), checksum mismatch over all bytes but the last (R123),
else the packet (R124). A sequence longer than it declares is read literally (R126, log entry 8). -/
def decodePacket (cfg : Config) (frame : List Byte) : Option Packet :=
  match frame with
  | _ :: _ :: f :: n :: v1 :: v0 :: c1 :: c0 :: body =>
    if lengthRefused cfg n then none
    else if frame.length < (frameLen f n).toNat then none
    else if ckPresent f && (some (xor8 frame.dropLast) != frame.getLast?) then none
    else some (mkPacket (be16Get v1 v0) (be16Get c1 c0) f (body.take n.toNat))
  | _ => none

/-- ENCODE (R135): the header, the fields, the payload, and a checksum byte if flags bit 0 is set; or
PayloadTooLarge, tested first and on the true length (R136, 92_eei_decisions.md D12). -/
def encodeFrame (vendor command : Half) (payload : List Byte) (flags : Byte) : Except EncodeError (List Byte) :=
  if maxPayload < payload.length then .error .payloadTooLarge
  else
    let frame := wireFrame versionByte flags vendor command payload []
    .ok (if ckPresent flags then frame ++ [xor8 frame] else frame)

/-- The completion test (R97): false while EXPECTED is UNKNOWN. -/
def frameComplete (s : State) : Bool :=
  match s.expected with
  | some e => s.cursor == e.toNat
  | none => false

/-- The storing part of R90, up to the completion test: store at CURSOR, remember the flags byte at offset 2,
fix the frame length at offset 3, advance CURSOR. -/
def storing (cfg : Config) (b : Byte) (s : State) : State :=
  let s1 := storeByte cfg s.cursor b s
  { s1 with
    flags := if s.cursor = offFlags then b else s.flags
    expected := if s.cursor = offLen then some (frameLen s.flags b) else s.expected
    cursor := s.cursor + 1 }

/-- The completion test and what follows it (R97). -/
def completing (cfg : Config) (s : State) : State × Option Packet :=
  if frameComplete s then (toIdle s, decodePacket cfg (staged s)) else (s, none)

/-- Whether the length byte `b`, met at offset 3, declares a frame that does not fit (R96): strictly greater
(R79). -/
def unrepresentable (cfg : Config) (b : Byte) (s : State) : Bool :=
  decide (s.cursor = offLen) && decide (cfg.cap < (frameLen s.flags b).toNat)

/-- STEP (R90), test by test in the order of 60_exceptions.md R160. -/
def stepByte (cfg : Config) (b : Byte) (s : State) : State × Option Packet :=
  if s.cursor = 0 ∧ b ≠ syncByte then (s, none)
  else if s.cursor < cfg.cap then
    if unrepresentable cfg b s then (toIdle (storeByte cfg offLen b s), none)
    else completing cfg (storing cfg b s)
  else (toIdle s, none)

/-- FEED (R101): STEP on each byte in order, the emitted packets concatenated in order. -/
def feedBytes (cfg : Config) : List Byte → State → State × List Packet
  | [], s => (s, [])
  | b :: bs, s =>
    let r := stepByte cfg b s
    let q := feedBytes cfg bs r.1
    (q.1, r.2.toList ++ q.2)

/-- End an arm: its state, with its output handed to the host. -/
def finish (r : State × Option Packet) : Host.Outcome State Fault Refusal :=
  .next (deliver (.emitted r.2) r.1)

/-- End an operation that reads and writes no decoder state: its value is handed to the host. -/
def answer (r : Result) (s : State) : Host.Outcome State Fault Refusal := .next (deliver r s)

end Sys2Proof.Machine
end

