-- ==== Sys2Proof/Machine/ByteStep.lean ====
section
/-! DEFINITION. The nine arms of STEP (spec/41_decoder_fsm.md R91 to R100). A meaning is the arm's own pseudocode,
in whatever state it is applied to; that the state selects the arm is `selectArm`'s business. DESIGN CHOICE,
safe (log entry 6). -/

namespace Sys2Proof.Machine

/-- DROP (R91): "no register and no buffer cell changes". -/
def execDrop (_b : Byte) (s : State) : Host.Outcome State Fault Refusal := finish (s, none)

/-- SYNC (R92). -/
def execSync (s : State) : Host.Outcome State Fault Refusal :=
  finish ({ storeByte Config.hw 0 syncByte s with cursor := 1 }, none)

/-- STAGE (R93), with its completion test (R97); within buffer capacity only, else R36's "the byte is not stored
and the GUARD arm runs". -/
def execStage (b : Byte) (s : State) : Host.Outcome State Fault Refusal :=
  if s.cursor < Config.hw.cap then
    finish (completing Config.hw { storeByte Config.hw s.cursor b s with cursor := s.cursor + 1 })
  else finish (toIdle s, none)

/-- STAGE.FLAGS (R94). -/
def execStageFlags (b : Byte) (s : State) : Host.Outcome State Fault Refusal :=
  finish ({ storeByte Config.hw offFlags b s with flags := b, cursor := 3 }, none)

/-- STAGE.LEN (R95), ending as ABORT (R96) when the declared frame does not fit. -/
def execStageLen (b : Byte) (s : State) : Host.Outcome State Fault Refusal :=
  let s1 := storeByte Config.hw offLen b s
  if Config.hw.cap < (frameLen s.flags b).toNat then finish (toIdle s1, none)
  else finish ({ s1 with expected := some (frameLen s.flags b), cursor := 4 }, none)

/-- ABORT (R96): the length byte has been stored by STAGE.LEN and is consumed; back to idle. -/
def execAbort (b : Byte) (s : State) : Host.Outcome State Fault Refusal :=
  finish (toIdle (storeByte Config.hw offLen b s), none)

/-- COMPLETE.EMIT (R97, R98): store, read the staged bytes, DECODE, back to idle; the packet is the output. -/
def execCompleteEmit (b : Byte) (s : State) : Host.Outcome State Fault Refusal :=
  let t := storing Config.hw b s
  finish (toIdle t, decodePacket Config.hw (staged t))

/-- COMPLETE.FAIL (R97, R99): store, back to idle, no output. -/
def execCompleteFail (b : Byte) (s : State) : Host.Outcome State Fault Refusal :=
  finish (toIdle (storing Config.hw b s), none)

/-- GUARD (R100): back to idle; the byte is dropped and nothing is stored (92_eei_decisions.md D10). -/
def execGuard (_b : Byte) (s : State) : Host.Outcome State Fault Refusal := finish (toIdle s, none)

end Sys2Proof.Machine
end

