-- ==== Sys2Proof/Machine/Frames.lean ====
section
/-! DEFINITION. The four frame kinds: "their semantics is DECODE" (spec/30_encoding.md R62), on the wire bytes the
row gives them (R50, R64). DEDUCED, safe (log entry 9). -/

namespace Sys2Proof.Machine

/-- DECODE of a frame with these fields. -/
def decodeWire (version flags : Byte) (vendor raw : Half) (payload tail : List Byte) (s : State) :
    Host.Outcome State Fault Refusal :=
  answer (.decoded (decodePacket Config.hw (wireFrame version flags vendor raw payload tail))) s

/-- FRAME.CMD (R62, R120). -/
def execFrameCmd (version : Byte) (reserved : BitVec 7) (vendor : Half) (command : BitVec 15) (payload : List Byte)
    (s : State) : Host.Outcome State Fault Refusal :=
  decodeWire version (flagsByte reserved false) vendor (rawOf false command) payload [] s

/-- FRAME.CMD.CK (R62, R120). -/
def execFrameCmdCk (version : Byte) (reserved : BitVec 7) (vendor : Half) (command : BitVec 15)
    (payload : List Byte) (checksum : Byte) (s : State) : Host.Outcome State Fault Refusal :=
  decodeWire version (flagsByte reserved true) vendor (rawOf false command) payload [checksum] s

/-- FRAME.ACK (R62, R120). -/
def execFrameAck (version : Byte) (reserved : BitVec 7) (vendor : Half) (command : BitVec 15) (payload : List Byte)
    (s : State) : Host.Outcome State Fault Refusal :=
  decodeWire version (flagsByte reserved false) vendor (rawOf true command) payload [] s

/-- FRAME.ACK.CK (R62, R120). -/
def execFrameAckCk (version : Byte) (reserved : BitVec 7) (vendor : Half) (command : BitVec 15)
    (payload : List Byte) (checksum : Byte) (s : State) : Host.Outcome State Fault Refusal :=
  decodeWire version (flagsByte reserved true) vendor (rawOf true command) payload [checksum] s

end Sys2Proof.Machine
end

