-- ==== Sys2Proof/Machine/Helpers.lean ====
section
/-! DEFINITION. The eight helpers (spec/40_packet_helpers.md R71 to R78): "it reads no state, writes no state, raises
nothing". -/

namespace Sys2Proof.Machine

/-- XOR8 (R71). -/
def execXor8 (bs : List Byte) (s : State) : Host.Outcome State Fault Refusal := answer (.byte (xor8 bs)) s

/-- BE16.GET (R72). -/
def execBe16Get (hi lo : Byte) (s : State) : Host.Outcome State Fault Refusal := answer (.half (be16Get hi lo)) s

/-- BE16.PUT (R73). -/
def execBe16Put (v : Half) (s : State) : Host.Outcome State Fault Refusal := answer (.bytes (be16Put v)) s

/-- FRAMELEN (R74). -/
def execFrameLen (f n : Byte) (s : State) : Host.Outcome State Fault Refusal := answer (.length (frameLen f n)) s

/-- ACKOF (R75). -/
def execAckOf (raw : Half) (s : State) : Host.Outcome State Fault Refusal := answer (.flag (ackOf raw)) s

/-- CMDOF (R76). -/
def execCmdOf (raw : Half) (s : State) : Host.Outcome State Fault Refusal := answer (.command (cmdOf raw)) s

/-- STATUSOF (R77). -/
def execStatusOf (ack : Bool) (payload : List Byte) (s : State) : Host.Outcome State Fault Refusal :=
  answer (.status (statusOf ack payload)) s

/-- MKPACKET (R78). -/
def execMkPacket (vendor raw : Half) (flags : Byte) (payload : List Byte) (s : State) :
    Host.Outcome State Fault Refusal :=
  answer (.packet (mkPacket vendor raw flags payload)) s

end Sys2Proof.Machine
end

