-- ==== Sys2Proof/Machine/HostOps.lean ====
section
/-! DEFINITION. STEP and the host operations FEED, SRST, DECODE, ENCODE (spec/41_decoder_fsm.md R90, R101, R102;
spec/42_frame_decode.md R120; spec/43_frame_encoder.md R135). -/

namespace Sys2Proof.Machine

/-- STEP (R90). -/
def execStep (b : Byte) (s : State) : Host.Outcome State Fault Refusal := finish (stepByte Config.hw b s)

/-- FEED (R101). -/
def execFeed (chunk : List Byte) (s : State) : Host.Outcome State Fault Refusal :=
  let r := feedBytes Config.hw chunk s
  .next (deliver (.packets r.2) r.1)

/-- SRST (R102): FLAGS and BUF are not changed (92_eei_decisions.md D5); nothing is returned. -/
def execSrst (s : State) : Host.Outcome State Fault Refusal := .next (deliver .nothing (toIdle s))

/-- DECODE (R120). -/
def execDecode (frame : List Byte) (s : State) : Host.Outcome State Fault Refusal :=
  answer (.decoded (decodePacket Config.hw frame)) s

/-- ENCODE (R135, R136). -/
def execEncode (vendor command : Half) (payload : List Byte) (flags : Byte) (s : State) :
    Host.Outcome State Fault Refusal :=
  answer (.encoded (encodeFrame vendor command payload flags)) s

end Sys2Proof.Machine
end

