-- ==== Sys2Proof/Machine/Dispatch.lean ====
section
/-! DEFINITION. One arm per row of spec/opcode_table.json. -/

namespace Sys2Proof.Machine

/-- The meaning of each instruction. -/
def exec (i : Instr) (s : State) : Host.Outcome State Fault Refusal :=
  match i with
  | .frameCmd v r w c p => Sys2Proof.Machine.execFrameCmd v r w c p s
  | .frameCmdCk v r w c p k => Sys2Proof.Machine.execFrameCmdCk v r w c p k s
  | .frameAck v r w c p => Sys2Proof.Machine.execFrameAck v r w c p s
  | .frameAckCk v r w c p k => Sys2Proof.Machine.execFrameAckCk v r w c p k s
  | .drop b => Sys2Proof.Machine.execDrop b s
  | .sync => Sys2Proof.Machine.execSync s
  | .stage b => Sys2Proof.Machine.execStage b s
  | .stageFlags b => Sys2Proof.Machine.execStageFlags b s
  | .stageLen b => Sys2Proof.Machine.execStageLen b s
  | .abort b => Sys2Proof.Machine.execAbort b s
  | .completeEmit b => Sys2Proof.Machine.execCompleteEmit b s
  | .completeFail b => Sys2Proof.Machine.execCompleteFail b s
  | .guard b => Sys2Proof.Machine.execGuard b s
  | .step b => Sys2Proof.Machine.execStep b s
  | .feed chunk => Sys2Proof.Machine.execFeed chunk s
  | .srst => Sys2Proof.Machine.execSrst s
  | .decode frame => Sys2Proof.Machine.execDecode frame s
  | .encode v c p f => Sys2Proof.Machine.execEncode v c p f s
  | .xor8 bs => Sys2Proof.Machine.execXor8 bs s
  | .be16Get hi lo => Sys2Proof.Machine.execBe16Get hi lo s
  | .be16Put v => Sys2Proof.Machine.execBe16Put v s
  | .frameLen f n => Sys2Proof.Machine.execFrameLen f n s
  | .ackOf raw => Sys2Proof.Machine.execAckOf raw s
  | .cmdOf raw => Sys2Proof.Machine.execCmdOf raw s
  | .statusOf a p => Sys2Proof.Machine.execStatusOf a p s
  | .mkPacket v raw f p => Sys2Proof.Machine.execMkPacket v raw f p s

end Sys2Proof.Machine
end

