-- ==== Sys2Proof/WellFormed.lean ====
section
/-! DEFINITION. Which instructions the encoding can express (spec/30_encoding.md R50, R55; spec/41_decoder_fsm.md R91). -/

namespace Sys2Proof

/-- The payload length must fit the length byte: `0 .. 255` as decoded (R7, R55). -/
def Instr.payloadFits (payload : List Byte) : Bool := payload.length ≤ 255

/-- The encodable instructions. A frame's payload fits its length byte; DROP's byte is not the sync byte
(R91: "any of the 255 values"). Operands of the other rows may have any value (R61, 92 D12). -/
def Instr.wf : Instr → Bool
  | .frameCmd _ _ _ _ p => Instr.payloadFits p
  | .frameCmdCk _ _ _ _ p _ => Instr.payloadFits p
  | .frameAck _ _ _ _ p => Instr.payloadFits p
  | .frameAckCk _ _ _ _ p _ => Instr.payloadFits p
  | .drop b => b != Machine.syncByte
  | .sync => true
  | .stage _ => true
  | .stageFlags _ => true
  | .stageLen _ => true
  | .abort _ => true
  | .completeEmit _ => true
  | .completeFail _ => true
  | .guard _ => true
  | .step _ => true
  | .feed _ => true
  | .srst => true
  | .decode _ => true
  | .encode _ _ _ _ => true
  | .xor8 _ => true
  | .be16Get _ _ => true
  | .be16Put _ => true
  | .frameLen _ _ => true
  | .ackOf _ => true
  | .cmdOf _ => true
  | .statusOf _ _ => true
  | .mkPacket _ _ _ _ => true

end Sys2Proof
end

