-- ==== Sys2Proof/Decode.lean ====
section
/-! DEFINITION. Decoding wire bytes into frame instructions, by the header patterns of spec/30_encoding.md R64,
and idle input bytes into DROP and SYNC (R62); then the encoder. Which arm a byte selects when the decoder is
not idle depends on the state: `Machine.selectArm`. -/

namespace Sys2Proof

/-- Why a byte sequence does not begin with a whole frame. -/
inductive Reject where
  /-- Fewer than the 8 header bytes (R121). -/
  | tooShort
  /-- The first byte is not `0xFF` (R64: the pattern covers the sync byte). -/
  | notSync
  /-- Fewer bytes than the header declares (R122). -/
  | truncated
  deriving DecidableEq, Repr

/-- The frame at the head of a byte sequence and the bytes after it. The kind is fixed by flags bit 0 and the
acknowledgement bit (R64); the version byte is any (R53), the length byte any, 255 included (R55). -/
def decodeFrame : List Byte → Except Reject (Instr × List Byte)
  | b0 :: version :: f :: n :: v1 :: v0 :: c1 :: c0 :: body =>
    if b0 ≠ Machine.syncByte then .error .notSync
    else if body.length < n.toNat then .error .truncated
    else
      let vendor := Machine.be16Get v1 v0
      let raw := Machine.be16Get c1 c0
      let payload := body.take n.toNat
      match Machine.ckPresent f, Machine.ackOf raw, body.drop n.toNat with
      | false, false, rest => .ok (.frameCmd version (Machine.reservedOf f) vendor (Machine.cmdOf raw) payload, rest)
      | false, true, rest => .ok (.frameAck version (Machine.reservedOf f) vendor (Machine.cmdOf raw) payload, rest)
      | true, false, c :: rest =>
        .ok (.frameCmdCk version (Machine.reservedOf f) vendor (Machine.cmdOf raw) payload c, rest)
      | true, true, c :: rest =>
        .ok (.frameAckCk version (Machine.reservedOf f) vendor (Machine.cmdOf raw) payload c, rest)
      | true, _, [] => .error .truncated
  | _ => .error .tooShort

/-- The arm an idle decoder selects for an input byte (R62, lines 1 and 2). -/
def decodeIdleByte (b : Byte) : Instr := if b = Machine.syncByte then .sync else .drop b

/-- An instruction from its bits. 64 bits are a frame header, wire byte 0 most significant (R64), completed by
the payload and checksum bytes it declares, all zero. 8 bits are an input byte, read as an idle decoder reads it
(the other byte-step arms have no bits of their own, R62). No other width is an encoding. DESIGN CHOICE, safe (log
entry 10). -/
def tableFrame (w : Nat) : List Byte :=
  let h : BitVec 64 := BitVec.ofNat 64 w
  let wire (k : Nat) : Byte := h.extractLsb' (56 - 8 * k) 8
  (List.range 8).map wire ++
    List.replicate ((wire 3).toNat + if Machine.ckPresent (wire 2) then 1 else 0) 0x00#8

/-- The instruction the decoder reads from an instruction of `nbits` bits whose value is `w`. -/
def decodeTableWord (nbits w : Nat) : Option Instr :=
  if nbits = 64 then
    match decodeFrame (tableFrame w) with
    | .ok (i, _) => some i
    | .error _ => none
  else if nbits = 8 then some (decodeIdleByte (BitVec.ofNat 8 w))
  else none

/-- The bytes of an instruction that has an encoding: a frame's wire bytes (R50), a byte-step arm's input byte
(R64). STEP, the host operations and the helpers have no opcode bits (R62). -/
def encode : Instr → Option (List Byte)
  | .frameCmd v r vendor c p =>
    some (Machine.wireFrame v (Machine.flagsByte r false) vendor (Machine.rawOf false c) p [])
  | .frameCmdCk v r vendor c p ck =>
    some (Machine.wireFrame v (Machine.flagsByte r true) vendor (Machine.rawOf false c) p [ck])
  | .frameAck v r vendor c p =>
    some (Machine.wireFrame v (Machine.flagsByte r false) vendor (Machine.rawOf true c) p [])
  | .frameAckCk v r vendor c p ck =>
    some (Machine.wireFrame v (Machine.flagsByte r true) vendor (Machine.rawOf true c) p [ck])
  | .drop b => some [b]
  | .sync => some [Machine.syncByte]
  | .stage b => some [b]
  | .stageFlags b => some [b]
  | .stageLen b => some [b]
  | .abort b => some [b]
  | .completeEmit b => some [b]
  | .completeFail b => some [b]
  | .guard b => some [b]
  | .step _ => none
  | .feed _ => none
  | .srst => none
  | .decode _ => none
  | .encode _ _ _ _ => none
  | .xor8 _ => none
  | .be16Get _ _ => none
  | .be16Put _ => none
  | .frameLen _ _ => none
  | .ackOf _ => none
  | .cmdOf _ => none
  | .statusOf _ _ => none
  | .mkPacket _ _ _ _ => none

/-- Whether an instruction is one of the four frame kinds (R62). -/
def Instr.isFrame : Instr → Bool
  | .frameCmd _ _ _ _ _ => true
  | .frameCmdCk _ _ _ _ _ _ => true
  | .frameAck _ _ _ _ _ => true
  | .frameAckCk _ _ _ _ _ _ => true
  | .drop _ => false
  | .sync => false
  | .stage _ => false
  | .stageFlags _ => false
  | .stageLen _ => false
  | .abort _ => false
  | .completeEmit _ => false
  | .completeFail _ => false
  | .guard _ => false
  | .step _ => false
  | .feed _ => false
  | .srst => false
  | .decode _ => false
  | .encode _ _ _ _ => false
  | .xor8 _ => false
  | .be16Get _ _ => false
  | .be16Put _ => false
  | .frameLen _ _ => false
  | .ackOf _ => false
  | .cmdOf _ => false
  | .statusOf _ _ => false
  | .mkPacket _ _ _ _ => false

/-- The instruction an operation called at its own interface is (R62). -/
def Operation.instr : Operation → Instr
  | .step b => .step b
  | .feed chunk => .feed chunk
  | .srst => .srst
  | .decode frame => .decode frame
  | .encode v c p f => .encode v c p f
  | .xor8 s => .xor8 s
  | .be16Get hi lo => .be16Get hi lo
  | .be16Put v => .be16Put v
  | .frameLen f n => .frameLen f n
  | .ackOf raw => .ackOf raw
  | .cmdOf raw => .cmdOf raw
  | .statusOf ack p => .statusOf ack p
  | .mkPacket v raw f p => .mkPacket v raw f p

end Sys2Proof
end

