-- ==== Sys2Proof/Machine/Fetch.lean ====
section
/-! DEFINITION. Which instruction a host request is: the arm the state selects for an offered byte
(spec/30_encoding.md R62), the frame kind of offered wire bytes (R64), the operation called. And the host's side of
the interface (spec/70_reset_and_hazards.md R184). -/

namespace Sys2Proof.Machine

/-- The arm STEP runs for the byte `b` (R62: "first match wins"; R90, R160). A storing arm whose completion test
holds after the store ends as COMPLETE.EMIT or COMPLETE.FAIL, by DECODE's result (R97). -/
def selectArm (cfg : Config) (s : State) (b : Byte) : Instr :=
  if s.cursor = 0 ∧ b ≠ syncByte then .drop b
  else if cfg.cap ≤ s.cursor then .guard b
  else if unrepresentable cfg b s then .abort b
  else
    let t := storing cfg b s
    if frameComplete t then
      match decodePacket cfg (staged t) with
      | some _ => .completeEmit b
      | none => .completeFail b
    else if s.cursor = 0 then .sync
    else if s.cursor = offFlags then .stageFlags b
    else if s.cursor = offLen then .stageLen b
    else .stage b

/-- The instruction offered wire bytes are: the frame kind whose pattern they match when they are exactly one
frame (R64), otherwise plain DECODE, which is total on any bytes (R120, R125). DEDUCED, safe (log entry 9). -/
def frameInstr (bytes : List Byte) : Instr :=
  match decodeFrame bytes with
  | .ok (i, []) => i
  | .ok (_, _ :: _) => .decode bytes
  | .error _ => .decode bytes

/-- The instruction a request is. -/
def fetchInstr (s : State) : Request → Instr
  | .byte b => selectArm Config.hw s b
  | .frame bytes => frameInstr bytes
  | .call op => op.instr

/-- The host's request for an instruction of the opcode table given by its bits, if the width is an encoding's:
an input byte, or a frame (R64). -/
def tableRequest (nbits w : Nat) : Option Request :=
  if nbits = 64 then some (.frame (tableFrame w))
  else if nbits = 8 then some (.byte (BitVec.ofNat 8 w))
  else none

/-- Put a request before all pending ones. -/
def placeFirst (s : State) : Option Request → State
  | some r => { s with inbox := r :: s.inbox }
  | none => s

/-- The host issues a request (R184): it is served after every earlier one (20_memory.md R38, R39). -/
def hostRequest (r : Request) (s : State) : State := { s with inbox := s.inbox ++ [r] }

end Sys2Proof.Machine
end

