-- ==== Sys2Proof/Machine/Step.lean ====
section
/-! DEFINITION. One step of the machine: serve the oldest pending host request, as the instruction it is in the
present state. -/

namespace Sys2Proof.Machine

/-- With no request pending the block waits, unchanged (spec/20_memory.md R44, spec/41_decoder_fsm.md R104: no
timeout). Otherwise the oldest request leaves the inbox and its instruction runs. DESIGN CHOICE, safe (log entry
4). -/
def step (s : State) : Host.Outcome State Fault Refusal :=
  match s.inbox with
  | [] => .next s
  | r :: rest => exec (fetchInstr s r) { s with inbox := rest }

/-- The state with the instruction of the given bits as the request served next. -/
def State.withFetchWord (s : State) (nbits w : Nat) : State := placeFirst s (tableRequest nbits w)

end Sys2Proof.Machine
end

