-- ==== Sys2Proof/Machine/Instances.lean ====
section
/-! DEFINITION. Several codec instances side by side (spec/10_state.md R17, spec/60_exceptions.md R165): each has
its own state, they share nothing, and the host creates and discards them (spec/70_reset_and_hazards.md R184).
DESIGN CHOICE, safe (log entry 13). -/

namespace Sys2Proof.Machine

/-- The instances that exist, in the order of their creation. -/
abbrev Instances := List State

/-- Creating a decoder is power-on reset (30_encoding.md R63, 70_reset_and_hazards.md R170). -/
def createInstance (ss : Instances) : Instances := ss ++ [State.reset]

/-- Discarding an instance (R184). -/
def discardInstance (ss : Instances) (k : Nat) : Instances := ss.eraseIdx k

/-- One step of instance `k` (nothing happens where there is none). -/
def stepInstance (ss : Instances) (k : Nat) : Instances :=
  match ss[k]? with
  | some s =>
    match step s with
    | .next t => ss.set k t
    | .fault _ => ss
    | .refused _ => ss
  | none => ss

/-- The host issues a request to instance `k`. -/
def requestInstance (ss : Instances) (k : Nat) (r : Request) : Instances :=
  match ss[k]? with
  | some s => ss.set k (hostRequest r s)
  | none => ss

end Sys2Proof.Machine
end

