-- ==== Sys2Proof/Safety.lean ====
section
/-! DEFINITION. The terms claims are stated in: the invariant of reachable states (spec/10_state.md R20), idle
decoders, observational equivalence (R22), reachability, and the premises of spec/70_reset_and_hazards.md R186. -/

namespace Sys2Proof.Safety

open Sys2Proof.Machine

/-- The invariant of reachable states (10_state.md R20; 20_memory.md R31 for `untouched`), with the canonical
form of memory, the model's own (log entry 16). -/
structure Inv (cfg : Config) (s : State) : Prop where
  /-- The memory is in canonical form. -/
  canonical : s.buf.wf = true
  /-- "Offsets 264 .. CAP-1 are never written" (R31). -/
  untouched : ∀ c ∈ s.buf, c.1 ≤ 263
  /-- R20 (a). -/
  unknown : s.cursor ≤ 3 → s.expected = none
  /-- R20 (b), the value of EXPECTED. -/
  known : 4 ≤ s.cursor → s.expected = some (frameLen s.flags (s.buf.read offLen))
  /-- R20 (b), the bounds of EXPECTED. -/
  bounds : 4 ≤ s.cursor → s.cursor < (frameLen s.flags (s.buf.read offLen)).toNat ∧
    (frameLen s.flags (s.buf.read offLen)).toNat ≤ cfg.cap
  /-- R20 (c). -/
  synced : 1 ≤ s.cursor → s.buf.read 0 = syncByte
  /-- R20 (b) and (d). -/
  flagged : 3 ≤ s.cursor → s.flags = s.buf.read offFlags
  /-- R20 (e), first half. -/
  inside : s.cursor < cfg.cap
  /-- R20 (e), second half. -/
  small : s.cursor ≤ 263

/-- An idle decoder (R22: "every idle state (`CURSOR = 0`, `EXPECTED = UNKNOWN`)"), the premise `P-IDLE` of R186. -/
structure Idle (s : State) : Prop where
  cursor : s.cursor = 0
  expected : s.expected = none

/-- What two decoder states must agree on to be indistinguishable (R22). -/
structure Agree (s t : State) : Prop where
  cursor : s.cursor = t.cursor
  expected : s.expected = t.expected
  bytes : ∀ a, a < s.cursor → s.buf.read a = t.buf.read a
  flags : 3 ≤ s.cursor → s.flags = t.flags

/-- The states a codec can be in: reset, then host requests and steps in any order (the premise `P-REACHABLE` of
R186, and the host's liberties of R184). -/
inductive Reachable : State → Prop where
  | reset : Reachable State.reset
  | request (r : Request) (s : State) : Reachable s → Reachable (hostRequest r s)
  | step (s t : State) : Reachable s → Machine.step s = .next t → Reachable t

/-- The decoder's part of the state is the same (10_state.md R10). -/
structure SameDecoder (s t : State) : Prop where
  cursor : s.cursor = t.cursor
  expected : s.expected = t.expected
  flags : s.flags = t.flags
  bytes : ∀ a, s.buf.read a = t.buf.read a

/-- The operands of one ENCODE call. -/
structure Command where
  vendor : Half
  command : Half
  payload : List Byte
  flags : Byte
  deriving DecidableEq, Repr

/-- The packet a command's frame decodes to (42_frame_decode.md R129). -/
def Command.packet (c : Command) : Packet := mkPacket c.vendor c.command c.flags c.payload

/-- The command's frame, for a payload within the limit (43_frame_encoder.md R135). -/
def Command.frame (c : Command) : List Byte :=
  match encodeFrame c.vendor c.command c.payload c.flags with
  | .ok bytes => bytes
  | .error _ => []

/-- The packets a result carries (70_reset_and_hazards.md R184). -/
def packetsOf : Result → List Packet
  | .nothing => []
  | .emitted o => o.toList
  | .packets ps => ps
  | .decoded o => o.toList
  | .encoded _ => []
  | .byte _ => []
  | .half _ => []
  | .bytes _ => []
  | .length _ => []
  | .flag _ => []
  | .command _ => []
  | .status _ => []
  | .packet p => [p]

/-- The invariant of R70: `command`, `ack` and `status` follow from the raw command id and the payload. -/
structure PacketConsistent (p : Packet) : Prop where
  command : p.command.toNat = p.rawCommandId.toNat % 0x8000
  ack : p.ack = decide (0x8000 ≤ p.rawCommandId.toNat)
  status : p.status = if p.ack then p.payload.head? else none

/-- A conforming sender's stream (`P-CONFORMING-SENDER`, R186): before each frame, bytes that are not `0xFF`. -/
def conformingStream : List (List Byte × Command) → List Byte
  | [] => []
  | (noise, c) :: rest => noise ++ c.frame ++ conformingStream rest

/-- Byte `i` of a sequence with its bit `j` inverted, the other bytes as they are. -/
def flipBit (bytes : List Byte) (i j : Nat) : List Byte :=
  bytes.modify i (fun b => b ^^^ (0x01#8 <<< j))

end Sys2Proof.Safety
end

