-- ==== Sys2Proof/Certificates/Slice0/Obligations.lean ====
section
/-! DEFINITION. The statements about the codec, from the numbered rules of spec/. A next state is written as a
whole record, so an equation `exec i s = .next t` is at once the instruction's result, its completion and its
frame; `result` is the value handed to the host. A premise `buf.wf = true` is the model's own canonical form of
BUF (log entry 16). -/

open Sys2Proof Sys2Proof.Machine Sys2Proof.Safety

section Encoding

/-- 30_encoding.md R50, R64: a frame instruction's wire bytes, whatever follows them, decode to that instruction
with every operand as it was, and the following bytes are left over. -/
def Obligations.FrameEncodingRoundTrip : Prop :=
  ∀ (i : Instr) (bytes rest : List Byte), i.isFrame = true → i.wf = true → encode i = some bytes →
    decodeFrame (bytes ++ rest) = .ok (i, rest)

/-- The other direction: what decodes to an instruction is that instruction's wire bytes and the rest; the
instruction is a well-formed frame. So no bit of a frame is dropped or read twice. -/
def Obligations.FrameDecodingIsExact : Prop :=
  ∀ (i : Instr) (bytes rest : List Byte), decodeFrame bytes = .ok (i, rest) →
    i.isFrame = true ∧ i.wf = true ∧ ∃ used, encode i = some used ∧ bytes = used ++ rest

/-- 30_encoding.md R64: "A frame kind is selected by `(word & mask) = match`", mask 0xFF00010000008000; a word
that does not start with the sync byte is no frame. -/
def Obligations.HeaderPatternSelectsKind : Prop :=
  ∀ w : BitVec 64,
    ((∃ v r x c p, decodeTableWord 64 w.toNat = some (.frameCmd v r x c p)) ↔
      w &&& 0xFF00010000008000#64 = 0xFF00000000000000#64) ∧
    ((∃ v r x c p k, decodeTableWord 64 w.toNat = some (.frameCmdCk v r x c p k)) ↔
      w &&& 0xFF00010000008000#64 = 0xFF00010000000000#64) ∧
    ((∃ v r x c p, decodeTableWord 64 w.toNat = some (.frameAck v r x c p)) ↔
      w &&& 0xFF00010000008000#64 = 0xFF00000000008000#64) ∧
    ((∃ v r x c p k, decodeTableWord 64 w.toNat = some (.frameAckCk v r x c p k)) ↔
      w &&& 0xFF00010000008000#64 = 0xFF00010000008000#64) ∧
    (decodeTableWord 64 w.toNat = none ↔ w &&& 0xFF00000000000000#64 ≠ 0xFF00000000000000#64)

/-- Words written out from the spec: the header words of S1, S2 and S3 (95_test_vectors.md), the sync byte and a
stray byte. -/
def Obligations.WrittenWordsDecode : Prop :=
  decodeTableWord 64 0xFF010000000A0003 = some (.frameCmd 0x01#8 0#7 0x000A#16 0x0003#15 []) ∧
  decodeTableWord 64 0xFF010001000A8003 = some (.frameAck 0x01#8 0#7 0x000A#16 0x0003#15 [0x00#8]) ∧
  decodeTableWord 64 0xFF010102000A0003 = some (.frameCmdCk 0x01#8 0#7 0x000A#16 0x0003#15 [0x00#8, 0x00#8] 0x00#8) ∧
  decodeTableWord 64 0xFF7FFF0012348ABC = some (.frameAckCk 0x7F#8 0x7F#7 0x1234#16 0x0ABC#15 [] 0x00#8) ∧
  decodeTableWord 8 0xFF = some .sync ∧ decodeTableWord 8 0x7E = some (.drop 0x7E#8)

/-- 30_encoding.md R62, R64: the arm selected for a byte is well formed and its encoding is that byte. -/
def Obligations.SelectedArmEncodesItsByte : Prop :=
  ∀ (s : State) (b : Byte), (selectArm Config.hw s b).wf = true ∧ encode (selectArm Config.hw s b) = some [b]

end Encoding

section Machine

/-- The state at power-on, in the values the spec gives; what a cell of BUF reads as is not said. -/
def Obligations.PowerOnValues : Prop :=
  State.reset.cursor = 0 ∧ State.reset.expected = none ∧ State.reset.flags = 0x00#8 ∧
    ∀ b : Byte, fetchInstr State.reset (.byte b) = if b = 0xFF#8 then .sync else .drop b

/-- One machine step, as the model builds it around `exec` (log entry 4): the oldest request leaves the inbox and
the instruction it is runs. An offered byte is the arm the state selects, offered wire bytes that are exactly one
frame are that frame kind and otherwise DECODE, a called operation is its own row. With no request pending the
block waits, whatever it holds (41_decoder_fsm.md R104: no timeout). A step always has a next state. -/
def Obligations.StepRunsFetchedInstruction : Prop :=
  (∀ s : State, s.inbox = [] → step s = .next s) ∧ (∀ s : State, ∃ t, step s = .next t) ∧
  ∀ (s : State) (r : Request) (rest : List Request), s.inbox = r :: rest →
    step s = exec (fetchInstr s r) { s with inbox := rest } ∧
    (∀ b, r = .byte b → fetchInstr s r = selectArm Config.hw s b) ∧
    (∀ bytes i, r = .frame bytes → decodeFrame bytes = .ok (i, []) → fetchInstr s r = i) ∧
    (∀ bytes, r = .frame bytes → (∀ i, decodeFrame bytes ≠ .ok (i, [])) → fetchInstr s r = .decode bytes) ∧
    (∀ op, r = .call op → fetchInstr s r = op.instr)

/-- 60_exceptions.md R163: no operation faults, hangs or is refused, in any state and for any operands; the one
error value that crosses the interface is ENCODE's PayloadTooLarge. -/
def Obligations.EveryOperationCompletes : Prop :=
  (∀ (i : Instr) (s : State), ∃ t, exec i s = .next t) ∧
  ∀ (i : Instr) (s t : State) (e : EncodeError), exec i s = .next t → t.result = .encoded (.error e) →
    e = .payloadTooLarge ∧ ∃ v c p f, i = .encode v c p f ∧ 254 < p.length

/-- 10_state.md R15: a value handed to the host is not retained; what an operation does does not depend on what
the one before it returned. -/
def Obligations.ResultIsNeverRead : Prop :=
  ∀ (i : Instr) (s : State) (r : Result), exec i { s with result := r } = exec i s

/-- 60_exceptions.md R165: instances share nothing; a new one is in the reset state. -/
def Obligations.InstancesShareNothing : Prop :=
  ∀ (ss : Instances) (k j : Nat) (r : Request), j ≠ k →
    (stepInstance ss k)[j]? = ss[j]? ∧ (requestInstance ss k r)[j]? = ss[j]? ∧
    (j < ss.length → (createInstance ss)[j]? = ss[j]?) ∧ (createInstance ss)[ss.length]? = some State.reset

end Machine

section Helpers

/-- XOR8: the running exclusive-or; order does not matter, a byte twice cancels, one changed byte changes exactly
those bits. -/
def Obligations.Xor8IsRunningExclusiveOr : Prop :=
  (∀ (bytes : List Byte) (s : State), exec (.xor8 bytes) s = .next { s with result := .byte (xor8 bytes) }) ∧
  xor8 [] = 0x00#8 ∧ (∀ (bytes : List Byte) (b : Byte), xor8 (bytes ++ [b]) = xor8 bytes ^^^ b) ∧
  (∀ a b : List Byte, a.Perm b → xor8 a = xor8 b) ∧
  (∀ (a c d : List Byte) (b : Byte), xor8 (a ++ [b] ++ c ++ [b] ++ d) = xor8 (a ++ c ++ d)) ∧
  (∀ bytes : List Byte, xor8 (bytes ++ [xor8 bytes]) = 0x00#8) ∧
  (∀ (a c : List Byte) (b m : Byte), xor8 (a ++ [b ^^^ m] ++ c) = xor8 (a ++ [b] ++ c) ^^^ m) ∧
  xor8 [0xFF#8, 0x01#8, 0x01#8, 0x02#8, 0x00#8, 0x0A#8, 0x00#8, 0x03#8, 0x10#8, 0x20#8] = 0xC4#8

/-- 40_packet_helpers.md R72. -/
def Obligations.Be16GetIsBigEndian : Prop :=
  (∀ (hi lo : Byte) (s : State),
    exec (.be16Get hi lo) s = .next { s with result := .half (BitVec.ofNat 16 (256 * hi.toNat + lo.toNat)) }) ∧
  be16Get 0x00#8 0x00#8 = 0x0000#16 ∧ be16Get 0xFF#8 0xFF#8 = 0xFFFF#16 ∧ be16Get 0x80#8 0x03#8 = 0x8003#16

/-- 40_packet_helpers.md R73. -/
def Obligations.Be16PutIsBigEndian : Prop :=
  (∀ (v : Half) (s : State), exec (.be16Put v) s =
    .next { s with result := .bytes [BitVec.ofNat 8 (v.toNat / 256), BitVec.ofNat 8 (v.toNat % 256)] }) ∧
  (∀ v : Half, ∃ hi lo, be16Put v = [hi, lo] ∧ be16Get hi lo = v) ∧
  (∀ hi lo : Byte, be16Put (be16Get hi lo) = [hi, lo]) ∧ be16Put 0x000A#16 = [0x00#8, 0x0A#8]

/-- 40_packet_helpers.md R74: no wrap, only flags bit 0 matters, between 8 and 264. -/
def Obligations.FrameLenCountsWithoutWrap : Prop :=
  (∀ (f n : Byte) (s : State), exec (.frameLen f n) s =
    .next { s with result := .length (BitVec.ofNat 9 (n.toNat + 8 + f.toNat % 2)) }) ∧
  (∀ f n : Byte, (frameLen f n).toNat = n.toNat + 8 + f.toNat % 2) ∧
  (∀ f n : Byte, 8 ≤ (frameLen f n).toNat ∧ (frameLen f n).toNat ≤ 264) ∧
  (∀ f f' n : Byte, f &&& 0x01#8 = f' &&& 0x01#8 → frameLen f n = frameLen f' n) ∧
  (∀ n : Byte, frameLen 0xFE#8 n = frameLen 0x00#8 n) ∧
  (frameLen 0x00#8 0x00#8).toNat = 8 ∧ (frameLen 0x01#8 0xFF#8).toNat = 264 ∧ (frameLen 0x01#8 0x02#8).toNat = 11

/-- 40_packet_helpers.md R75, R76, R77: the acknowledgement flag and the 15-bit command, that they are the whole raw
command id, and the status byte, which also stays in the payload. -/
def Obligations.AckCommandAndStatus : Prop :=
  (∀ (raw : Half) (s : State),
    exec (.ackOf raw) s = .next { s with result := .flag (decide (0x8000 ≤ raw.toNat)) }) ∧
  (∀ (raw : Half) (s : State),
    exec (.cmdOf raw) s = .next { s with result := .command (BitVec.ofNat 15 (raw.toNat % 0x8000)) }) ∧
  (∀ raw : Half, raw = (if ackOf raw then 0x8000#16 else 0x0000#16) ||| (cmdOf raw).setWidth 16) ∧
  ackOf 0x8000#16 = true ∧ ackOf 0x7FFF#16 = false ∧ ackOf 0x8003#16 = true ∧
  cmdOf 0xFFFF#16 = 0x7FFF#15 ∧ cmdOf 0x8000#16 = 0#15 ∧ cmdOf 0x8003#16 = 0x0003#15 ∧
  (∀ (b : Byte) (p : List Byte) (s : State),
    exec (.statusOf true (b :: p)) s = .next { s with result := .status (some b) }) ∧
  (∀ s : State, exec (.statusOf true []) s = .next { s with result := .status none }) ∧
  (∀ (p : List Byte) (s : State), exec (.statusOf false p) s = .next { s with result := .status none }) ∧
  (∀ (v raw : Half) (f : Byte) (p : List Byte), (mkPacket v raw f p).payload = p)

/-- 40_packet_helpers.md R78, with the invariant of R70: nothing is validated, the dependent fields follow. -/
def Obligations.MkPacketFillsSevenFields : Prop :=
  ∀ (v raw : Half) (f : Byte) (p : List Byte) (s : State), ∃ k : Packet,
    exec (.mkPacket v raw f p) s = .next { s with result := .packet k } ∧
    k.vendorId = v ∧ k.rawCommandId = raw ∧ k.flags = f ∧ k.payload = p ∧ k.command = cmdOf raw ∧
    k.ack = ackOf raw ∧ k.status = statusOf (ackOf raw) p ∧ PacketConsistent k

/-- 10_state.md R16, R10: DECODE, ENCODE, the frame kinds and the helpers change nothing but the value handed to the
host: no register, no cell of BUF, no pending request. -/
def Obligations.PureOperationsFrame : Prop :=
  ∀ (i : Instr) (s t : State), exec i s = .next t →
    (i.isFrame = true ∨ (∃ x, i = .decode x) ∨ (∃ v c p f, i = .encode v c p f) ∨ (∃ x, i = .xor8 x) ∨
      (∃ h l, i = .be16Get h l) ∨ (∃ v, i = .be16Put v) ∨ (∃ f n, i = .frameLen f n) ∨ (∃ r, i = .ackOf r) ∨
      (∃ r, i = .cmdOf r) ∨ (∃ a p, i = .statusOf a p) ∨ (∃ v r f p, i = .mkPacket v r f p)) →
    t.cursor = s.cursor ∧ t.expected = s.expected ∧ t.flags = s.flags ∧ t.inbox = s.inbox ∧
      ∀ a, t.buf.read a = s.buf.read a

/-- 40_packet_helpers.md R70: every packet any operation hands to the host satisfies the packet invariant. -/
def Obligations.EveryPacketIsConsistent : Prop :=
  ∀ (i : Instr) (s t : State), exec i s = .next t → ∀ p ∈ packetsOf t.result, PacketConsistent p

end Helpers

section Decode

/-- 42_frame_decode.md R121: below 8 bytes `none`, exactly 8 is long enough. -/
def Obligations.DecodeTooShort : Prop :=
  (∀ (frame : List Byte) (s : State), frame.length < 8 →
    exec (.decode frame) s = .next { s with result := .decoded none }) ∧
  (∀ (b0 b1 f v1 v0 c1 c0 : Byte) (s : State), f.getLsbD 0 = false →
    ∃ p, exec (.decode [b0, b1, f, 0x00#8, v1, v0, c1, c0]) s = .next { s with result := .decoded (some p) })

/-- 42_frame_decode.md R122: a frame shorter than it declares gives `none`; equality and a longer frame pass this
test. -/
def Obligations.DecodeLengthMismatch : Prop :=
  ∀ (b0 b1 f n v1 v0 c1 c0 : Byte) (body : List Byte) (s : State),
    (body.length + 8 < n.toNat + 8 + f.toNat % 2 →
      exec (.decode (b0 :: b1 :: f :: n :: v1 :: v0 :: c1 :: c0 :: body)) s =
        .next { s with result := .decoded none }) ∧
    (n.toNat + 8 + f.toNat % 2 ≤ body.length + 8 →
      (f.getLsbD 0 = true → xor8 (b0 :: b1 :: f :: n :: v1 :: v0 :: c1 :: c0 :: body) = 0x00#8) →
      ∃ p, exec (.decode (b0 :: b1 :: f :: n :: v1 :: v0 :: c1 :: c0 :: body)) s =
        .next { s with result := .decoded (some p) })

/-- 42_frame_decode.md R123: with flags bit 0 set the exclusive-or of all bytes but the last must be the last byte,
equivalently that of all bytes must be zero; with it clear nothing is checked. -/
def Obligations.DecodeChecksum : Prop :=
  ∀ (b0 b1 f n v1 v0 c1 c0 : Byte) (body : List Byte) (last : Byte) (s : State),
    n.toNat + 8 + f.toNat % 2 ≤ body.length + 9 →
    (f.getLsbD 0 = true → xor8 (b0 :: b1 :: f :: n :: v1 :: v0 :: c1 :: c0 :: body) ≠ last →
      exec (.decode (b0 :: b1 :: f :: n :: v1 :: v0 :: c1 :: c0 :: (body ++ [last]))) s =
        .next { s with result := .decoded none }) ∧
    (f.getLsbD 0 = true → xor8 (b0 :: b1 :: f :: n :: v1 :: v0 :: c1 :: c0 :: body) = last →
      ∃ p, exec (.decode (b0 :: b1 :: f :: n :: v1 :: v0 :: c1 :: c0 :: (body ++ [last]))) s =
        .next { s with result := .decoded (some p) }) ∧
    (f.getLsbD 0 = false →
      ∃ p, exec (.decode (b0 :: b1 :: f :: n :: v1 :: v0 :: c1 :: c0 :: (body ++ [last]))) s =
        .next { s with result := .decoded (some p) }) ∧
    (xor8 (b0 :: b1 :: f :: n :: v1 :: v0 :: c1 :: c0 :: body) = last ↔
      xor8 (b0 :: b1 :: f :: n :: v1 :: v0 :: c1 :: c0 :: (body ++ [last])) = 0x00#8)

/-- 42_frame_decode.md R124: the fields of a decoded packet; the version byte and the checksum are not
reported. -/
def Obligations.DecodeExtractsFields : Prop :=
  ∀ (b0 b1 f n v1 v0 c1 c0 : Byte) (body : List Byte) (s : State) (p : Packet),
    exec (.decode (b0 :: b1 :: f :: n :: v1 :: v0 :: c1 :: c0 :: body)) s =
      .next { s with result := .decoded (some p) } →
    p.vendorId.toNat = 256 * v1.toNat + v0.toNat ∧ p.rawCommandId.toNat = 256 * c1.toNat + c0.toNat ∧
    p.flags = f ∧ p.payload = body.take n.toNat ∧ p.payload.length = n.toNat ∧ PacketConsistent p

/-- What DECODE does not check (92_eei_decisions.md D15, D8): the sync and version bytes have no influence but
through the checksum; a length byte of 255 is accepted here and refused under LEN255_ACCEPT off. -/
def Obligations.DecodeIgnoresSyncVersionAndRange : Prop :=
  (∀ (cfg : Config) (b0 b1 b0' b1' : Byte) (rest : List Byte), b0 ^^^ b1 = b0' ^^^ b1' →
    decodePacket cfg (b0 :: b1 :: rest) = decodePacket cfg (b0' :: b1' :: rest)) ∧
  (∀ (cfg : Config) (b0 b1 b0' b1' f : Byte) (rest : List Byte), f.getLsbD 0 = false →
    decodePacket cfg (b0 :: b1 :: f :: rest) = decodePacket cfg (b0' :: b1' :: f :: rest)) ∧
  (∀ (b0 b1 f v1 v0 c1 c0 : Byte) (body : List Byte), f.getLsbD 0 = false → 255 ≤ body.length →
    ∃ p, decodePacket Config.hw (b0 :: b1 :: f :: 0xFF#8 :: v1 :: v0 :: c1 :: c0 :: body) = some p ∧
      p.payload.length = 255) ∧
  (∀ (cap : Nat) (b0 b1 f v1 v0 c1 c0 : Byte) (body : List Byte),
    decodePacket { cap := cap, len255Accept := false }
      (b0 :: b1 :: f :: 0xFF#8 :: v1 :: v0 :: c1 :: c0 :: body) = none)

/-- 30_encoding.md R62: the semantics of a frame kind is DECODE, of its own bytes; and bytes offered as a frame are
decoded whichever row they are fetched as. -/
def Obligations.FrameKindIsDecodeOfItsBytes : Prop :=
  (∀ (i : Instr) (bytes : List Byte) (s : State), i.isFrame = true → encode i = some bytes →
    exec i s = exec (.decode bytes) s) ∧
  (∀ (bytes : List Byte) (s : State), exec (fetchInstr s (.frame bytes)) s = exec (.decode bytes) s)

/-- The frame kinds without checksum always yield their packet. -/
def Obligations.PlainFramesYieldTheirPacket : Prop :=
  ∀ (v : Byte) (r : BitVec 7) (vendor : Half) (c : BitVec 15) (p : List Byte) (s : State), p.length ≤ 255 →
    exec (.frameCmd v r vendor c p) s = .next { s with result := .decoded (some
      { vendorId := vendor, rawCommandId := c.setWidth 16, command := c, ack := false, flags := r ++ 0#1,
        payload := p, status := none }) } ∧
    exec (.frameAck v r vendor c p) s = .next { s with result := .decoded (some
      { vendorId := vendor, rawCommandId := c.setWidth 16 ||| 0x8000#16, command := c, ack := true, flags := r ++ 0#1,
        payload := p, status := p.head? }) }

/-- The frame kinds with checksum yield their packet exactly when the checksum byte is the exclusive-or of the
bytes before it. -/
def Obligations.ChecksummedFramesYieldTheirPacket : Prop :=
  ∀ (v : Byte) (r : BitVec 7) (vendor : Half) (c : BitVec 15) (p : List Byte) (k : Byte) (s : State),
    p.length ≤ 255 →
    (∃ o, exec (.frameCmdCk v r vendor c p k) s = .next { s with result := .decoded o } ∧
      o = if xor8 (wireFrame v (r ++ 1#1) vendor (c.setWidth 16) p []) = k then some
        { vendorId := vendor, rawCommandId := c.setWidth 16, command := c, ack := false, flags := r ++ 1#1,
          payload := p, status := none } else none) ∧
    (∃ o, exec (.frameAckCk v r vendor c p k) s = .next { s with result := .decoded o } ∧
      o = if xor8 (wireFrame v (r ++ 1#1) vendor (c.setWidth 16 ||| 0x8000#16) p []) = k then some
        { vendorId := vendor, rawCommandId := c.setWidth 16 ||| 0x8000#16, command := c, ack := true,
          flags := r ++ 1#1, payload := p, status := p.head? } else none)

end Decode

section Encode

/-- 43_frame_encoder.md R136: the one error, decided by the payload length alone. -/
def Obligations.EncodeRejectsLongPayload : Prop :=
  ∀ (v c : Half) (p : List Byte) (f : Byte) (s : State),
    (254 < p.length → exec (.encode v c p f) s = .next { s with result := .encoded (.error .payloadTooLarge) }) ∧
    (p.length ≤ 254 → ∃ frame, exec (.encode v c p f) s = .next { s with result := .encoded (.ok frame) })

/-- 43_frame_encoder.md R137, R138, R139: every byte of the frame. -/
def Obligations.EncodeLaysOutFrame : Prop :=
  ∀ (v c : Half) (p : List Byte) (f : Byte) (s : State), p.length ≤ 254 →
    let body : List Byte := [0xFF#8, 0x01#8, f, BitVec.ofNat 8 p.length, BitVec.ofNat 8 (v.toNat / 256),
      BitVec.ofNat 8 (v.toNat % 256), BitVec.ofNat 8 (c.toNat / 256), BitVec.ofNat 8 (c.toNat % 256)] ++ p
    (f.getLsbD 0 = false → exec (.encode v c p f) s = .next { s with result := .encoded (.ok body) }) ∧
    (f.getLsbD 0 = true → exec (.encode v c p f) s =
      .next { s with result := .encoded (.ok (body ++ [xor8 body])) })

/-- The length of an encoded frame is the one its own header declares, at most 263, and the exclusive-or of a
checksummed frame is zero. -/
def Obligations.EncodedFrameDeclaresItsLength : Prop :=
  ∀ (v c : Half) (p : List Byte) (f : Byte) (frame : List Byte), encodeFrame v c p f = .ok frame →
    frame.length = p.length + 8 + f.toNat % 2 ∧ 8 ≤ frame.length ∧ frame.length ≤ 263 ∧
    (∃ n, frame[2]? = some f ∧ frame[3]? = some n ∧ (frameLen f n).toNat = frame.length) ∧
    (f.getLsbD 0 = true → xor8 frame = 0x00#8)

/-- The round trip: DECODE of an encoded command, in whatever states the two operations run, gives the packet of
its operands. And ENCODE is injective on its success domain. -/
def Obligations.DecodeInvertsEncode : Prop :=
  (∀ (v c : Half) (p : List Byte) (f : Byte) (s s' : State), p.length ≤ 254 → ∃ frame,
    exec (.encode v c p f) s = .next { s with result := .encoded (.ok frame) } ∧
    exec (.decode frame) s' = .next { s' with result := .decoded (some (mkPacket v c f p)) }) ∧
  (∀ (v c v' c' : Half) (p p' : List Byte) (f f' : Byte) (frame : List Byte),
    encodeFrame v c p f = .ok frame → encodeFrame v' c' p' f' = .ok frame →
    v = v' ∧ c = c' ∧ p = p' ∧ f = f')

/-- One inverted bit anywhere in a checksummed frame makes DECODE fail, but for flags bit 0, whose inversion drops
the checksum test (90_conflicts.md C4). -/
def Obligations.SingleBitCorruption : Prop :=
  ∀ (v c : Half) (p : List Byte) (f : Byte) (frame : List Byte) (i j : Nat) (s : State),
    f.getLsbD 0 = true → encodeFrame v c p f = .ok frame → i < frame.length → j < 8 →
    (i = 2 ∧ j = 0 → exec (.decode (flipBit frame i j)) s =
      .next { s with result := .decoded (some (mkPacket v c (f ^^^ 0x01#8) p)) }) ∧
    (¬ (i = 2 ∧ j = 0) → exec (.decode (flipBit frame i j)) s = .next { s with result := .decoded none })

end Encode

section Arms

/-- 41_decoder_fsm.md R91: DROP, and any number of stray bytes in a row. -/
def Obligations.DropDiscardsStrayBytes : Prop :=
  (∀ (s : State) (b : Byte), s.cursor = 0 → b ≠ 0xFF#8 →
    selectArm Config.hw s b = .drop b ∧ exec (.drop b) s = .next { s with result := .emitted none }) ∧
  (∀ (s : State) (chunk : List Byte), s.cursor = 0 → (∀ b ∈ chunk, b ≠ 0xFF#8) →
    exec (.feed chunk) s = .next { s with result := .packets [] })

/-- 41_decoder_fsm.md R92: SYNC. -/
def Obligations.SyncStartsFrame : Prop :=
  ∀ s : State, Idle s →
    selectArm Config.hw s 0xFF#8 = .sync ∧
    exec .sync s = .next { s with buf := s.buf.write 0 0xFF#8, cursor := 1, result := .emitted none }

/-- 41_decoder_fsm.md R93: STAGE stores at CURSOR and advances; its completion test can succeed only with at least
8 bytes staged, and then the step ends with DECODE's answer and an idle decoder. -/
def Obligations.StageStoresAtCursor : Prop :=
  ∀ (s : State) (b : Byte), Inv Config.hw s → s.cursor = 1 ∨ 4 ≤ s.cursor →
    ((∀ e, s.expected = some e → e.toNat ≠ s.cursor + 1) →
      selectArm Config.hw s b = .stage b ∧ exec (.stage b) s =
        .next { s with buf := s.buf.write s.cursor b, cursor := s.cursor + 1, result := .emitted none }) ∧
    (∀ e, s.expected = some e → e.toNat = s.cursor + 1 →
      8 ≤ s.cursor + 1 ∧ exec (.stage b) s =
        .next { s with buf := s.buf.write s.cursor b, cursor := 0, expected := none,
                       result := .emitted (decodePacket Config.hw (staged s ++ [b])) }) ∧
    (s.buf.write s.cursor b).read s.cursor = b ∧ s.cursor ≤ 269

/-- 41_decoder_fsm.md R94: STAGE.FLAGS. -/
def Obligations.StageFlagsRemembersFlags : Prop :=
  ∀ (s : State) (b : Byte), s.cursor = 2 → s.expected = none →
    selectArm Config.hw s b = .stageFlags b ∧
    exec (.stageFlags b) s =
      .next { s with buf := s.buf.write 2 b, flags := b, cursor := 3, result := .emitted none }

/-- 41_decoder_fsm.md R95 on this hardware: STAGE.LEN fixes the frame length; no length byte aborts. -/
def Obligations.StageLenFixesLength : Prop :=
  ∀ (s : State) (b : Byte), s.cursor = 3 →
    selectArm Config.hw s b = .stageLen b ∧
    exec (.stageLen b) s = .next { s with
      buf := s.buf.write 3 b, expected := some (BitVec.ofNat 9 (b.toNat + 8 + s.flags.toNat % 2)), cursor := 4,
      result := .emitted none }

/-- ABORT, at any capacity it can occur at: the length byte is stored and consumed, the frame abandoned. -/
def Obligations.AbortAbandonsFrame : Prop :=
  (∀ (cfg : Config) (s : State) (b : Byte), s.cursor = 3 → 3 < cfg.cap →
    cfg.cap < b.toNat + 8 + s.flags.toNat % 2 →
    selectArm cfg s b = .abort b ∧
    stepByte cfg b s = ({ s with buf := s.buf.write 3 b, cursor := 0, expected := none }, none)) ∧
  (∀ (s : State) (b : Byte), exec (.abort b) s =
    .next { s with buf := s.buf.write 3 b, cursor := 0, expected := none, result := .emitted none })

/-- 41_decoder_fsm.md R98: the completing byte of a frame that decodes. -/
def Obligations.CompleteEmitsPacket : Prop :=
  ∀ (s : State) (b : Byte) (p : Packet), Inv Config.hw s → (∃ e, s.expected = some e ∧ e.toNat = s.cursor + 1) →
    decodePacket Config.hw (staged s ++ [b]) = some p →
    selectArm Config.hw s b = .completeEmit b ∧
    exec (.completeEmit b) s = .next { s with
      buf := s.buf.write s.cursor b, cursor := 0, expected := none, result := .emitted (some p) }

/-- 41_decoder_fsm.md R99: the completing byte of a frame that does not decode. -/
def Obligations.CompleteFailsSilently : Prop :=
  ∀ (s : State) (b : Byte), Inv Config.hw s → (∃ e, s.expected = some e ∧ e.toNat = s.cursor + 1) →
    decodePacket Config.hw (staged s ++ [b]) = none →
    selectArm Config.hw s b = .completeFail b ∧
    exec (.completeFail b) s = .next { s with
      buf := s.buf.write s.cursor b, cursor := 0, expected := none, result := .emitted none }

/-- GUARD, in the states no run reaches: the byte, `0xFF` too, is dropped and nothing is stored. -/
def Obligations.GuardReturnsToIdle : Prop :=
  ∀ (s : State) (b : Byte), 270 ≤ s.cursor →
    selectArm Config.hw s b = .guard b ∧
    exec (.guard b) s = .next { s with cursor := 0, expected := none, result := .emitted none }

/-- What the arms, STEP and SRST leave unchanged: the pending requests; every cell but the one stored to; FLAGS but
where the flags byte is stored. -/
def Obligations.ArmFrames : Prop :=
  ∀ (i : Instr) (s t : State) (b : Byte), exec i s = .next t →
    (i = .drop b ∨ i = .guard b ∨ i = .srst →
      t.inbox = s.inbox ∧ t.flags = s.flags ∧ ∀ a, t.buf.read a = s.buf.read a) ∧
    (i = .sync → t.inbox = s.inbox ∧ t.flags = s.flags ∧ t.expected = s.expected ∧
      ∀ a, a ≠ 0 → t.buf.read a = s.buf.read a) ∧
    (i = .stage b → t.inbox = s.inbox ∧ t.flags = s.flags ∧ ∀ a, a ≠ s.cursor → t.buf.read a = s.buf.read a) ∧
    (i = .stageFlags b → t.inbox = s.inbox ∧ t.expected = s.expected ∧
      ∀ a, a ≠ offFlags → t.buf.read a = s.buf.read a) ∧
    (i = .stageLen b ∨ i = .abort b → t.inbox = s.inbox ∧ t.flags = s.flags ∧
      ∀ a, a ≠ offLen → t.buf.read a = s.buf.read a) ∧
    (i = .completeEmit b ∨ i = .completeFail b ∨ i = .step b → t.inbox = s.inbox ∧
      (s.cursor ≠ offFlags → t.flags = s.flags) ∧ ∀ a, a ≠ s.cursor → t.buf.read a = s.buf.read a)

end Arms

section Stream

/-- 30_encoding.md R62 with 41_decoder_fsm.md R90: STEP is the arm the state selects, in every state. -/
def Obligations.StepIsItsSelectedArm : Prop :=
  ∀ (s : State) (b : Byte), exec (.step b) s = exec (selectArm Config.hw s b) s

/-- The transition table of 41_decoder_fsm.md section 3, on the states that meet the invariant. -/
def Obligations.StepFollowsTransitionTable : Prop :=
  ∀ (s : State) (b : Byte), Inv Config.hw s → exec (.step b) s = .next (
    if s.cursor = 0 then
      if b = 0xFF#8 then { s with buf := s.buf.write 0 b, cursor := 1, result := .emitted none }
      else { s with result := .emitted none }
    else if s.cursor = 1 then { s with buf := s.buf.write 1 b, cursor := 2, result := .emitted none }
    else if s.cursor = 2 then { s with buf := s.buf.write 2 b, flags := b, cursor := 3, result := .emitted none }
    else if s.cursor = 3 then
      { s with buf := s.buf.write 3 b, expected := some (BitVec.ofNat 9 (b.toNat + 8 + s.flags.toNat % 2)),
               cursor := 4, result := .emitted none }
    else if s.expected = some (BitVec.ofNat 9 (s.cursor + 1)) then
      { s with buf := s.buf.write s.cursor b, cursor := 0, expected := none,
               result := .emitted (decodePacket Config.hw (staged s ++ [b])) }
    else { s with buf := s.buf.write s.cursor b, cursor := s.cursor + 1, result := .emitted none })

/-- 41_decoder_fsm.md R101: FEED of nothing does nothing; FEED of a byte and more is STEP on the byte, then FEED of
the rest, the packets in order. -/
def Obligations.FeedFoldsStep : Prop :=
  (∀ s : State, exec (.feed []) s = .next { s with result := .packets [] }) ∧
  (∀ (s : State) (b : Byte) (bs : List Byte), ∃ (t u : State) (o : Option Packet) (ps : List Packet),
    exec (.step b) s = .next t ∧ t.result = .emitted o ∧ exec (.feed bs) t = .next u ∧ u.result = .packets ps ∧
    exec (.feed (b :: bs)) s = .next { u with result := .packets (o.toList ++ ps) })

/-- What FEED leaves unchanged: the pending requests, and every cell the chunk cannot reach from CURSOR. -/
def Obligations.FeedFrame : Prop :=
  ∀ (chunk : List Byte) (s t : State), exec (.feed chunk) s = .next t →
    t.inbox = s.inbox ∧ (∀ a, s.cursor + chunk.length ≤ a → t.buf.read a = s.buf.read a) ∧
    (Inv Config.hw s → ∀ a, 263 < a → t.buf.read a = s.buf.read a)

/-- SRST: CURSOR and EXPECTED, nothing else; afterwards the decoder cannot be told from a new one, and on an idle
decoder nothing changes. -/
def Obligations.SrstReturnsToIdle : Prop :=
  ∀ s : State, exec .srst s = .next { s with cursor := 0, expected := none, result := .nothing } ∧
    (∀ t, exec .srst s = .next t → Agree t State.reset ∧ (Idle s → SameDecoder s t))

/-- 41_decoder_fsm.md R103: while staging no byte is tested for sync; `0xFF` is stored at CURSOR like any other
value; a payload with `0xFF` in it decodes unchanged. -/
def Obligations.SyncTestedOnlyWhileIdle : Prop :=
  (∀ s : State, Idle s → s.buf.wf = true → ∃ t,
    exec (.feed [0xFF#8, 0x01#8, 0x00#8, 0x02#8, 0x00#8, 0x0A#8, 0x00#8, 0x03#8, 0xFF#8, 0x02#8]) s = .next t ∧
    t.result = .packets [mkPacket 0x000A#16 0x0003#16 0x00#8 [0xFF#8, 0x02#8]]) ∧
  ∀ (s t : State) (b : Byte), 1 ≤ s.cursor → s.cursor < 270 → s.buf.wf = true → exec (.step b) s = .next t →
    selectArm Config.hw s b ≠ .sync ∧ selectArm Config.hw s b ≠ .drop b ∧ t.buf.read s.cursor = b

/-- Chunk boundaries leave no trace, from every state. -/
def Obligations.ChunkingChangesNothing : Prop :=
  ∀ (s : State) (a c : List Byte), ∃ (t u : State) (pa pc : List Packet),
    exec (.feed a) s = .next t ∧ t.result = .packets pa ∧ exec (.feed c) t = .next u ∧ u.result = .packets pc ∧
    exec (.feed (a ++ c)) s = .next { u with result := .packets (pa ++ pc) }

/-- One encoded frame, fed to an idle decoder of any conforming capacity, gives exactly its packet, on its last
byte, and leaves the decoder idle. -/
def Obligations.EncodedFrameGivesOnePacket : Prop :=
  ∀ (cfg : Config) (c : Command) (s : State), cfg.Conforming → c.payload.length ≤ 254 → Idle s → s.buf.wf = true →
    (feedBytes cfg c.frame s).2 = [c.packet] ∧ Idle (feedBytes cfg c.frame s).1 ∧
    (feedBytes cfg c.frame.dropLast s).2 = []

/-- A conforming sender's stream gives its packets, in order, and leaves the decoder idle. -/
def Obligations.ConformingStreamGivesItsPackets : Prop :=
  ∀ (items : List (List Byte × Command)) (s : State), Idle s → s.buf.wf = true →
    (∀ x ∈ items, (∀ b ∈ x.1, b ≠ 0xFF#8) ∧ x.2.payload.length ≤ 254) →
    ∃ t, exec (.feed (conformingStream items)) s = .next t ∧ t.result = .packets (items.map (·.2.packet)) ∧ Idle t

/-- A wrong checksum byte costs its frame and no more. -/
def Obligations.BadChecksumCostsOneFrame : Prop :=
  ∀ (c d : Command) (last : Byte) (s : State), Idle s → s.buf.wf = true → c.flags.getLsbD 0 = true →
    c.payload.length ≤ 254 → d.payload.length ≤ 254 → c.frame.getLast? ≠ some last →
    (∃ t, exec (.feed (c.frame.dropLast ++ [last])) s = .next t ∧ t.result = .packets [] ∧ Idle t) ∧
    (∃ t, exec (.feed (c.frame.dropLast ++ [last] ++ d.frame)) s = .next t ∧ t.result = .packets [d.packet] ∧ Idle t)

/-- A packet is emitted only by a step that entered with at least 7 bytes staged, and a chunk of n bytes gives at
most (n + CURSOR) / 8 packets. -/
def Obligations.PacketsNeedEightBytes : Prop :=
  (∀ (s t : State) (b : Byte) (p : Packet), exec (.step b) s = .next t → t.result = .emitted (some p) →
    7 ≤ s.cursor) ∧
  ∀ (s t : State) (chunk : List Byte) (ps : List Packet), exec (.feed chunk) s = .next t →
    t.result = .packets ps → ps.length ≤ (chunk.length + s.cursor) / 8

/-- Inside STEP only the checksum can fail: a completing frame fails exactly when it carries a checksum and the
exclusive-or of its bytes is not zero. -/
def Obligations.OnlyChecksumFailsInStep : Prop :=
  ∀ (s : State) (b : Byte), Inv Config.hw s → (∃ e, s.expected = some e ∧ e.toNat = s.cursor + 1) →
    (selectArm Config.hw s b = .completeFail b ↔ s.flags.getLsbD 0 = true ∧ xor8 (staged s ++ [b]) ≠ 0x00#8) ∧
    (selectArm Config.hw s b = .completeEmit b ↔ ¬ (s.flags.getLsbD 0 = true ∧ xor8 (staged s ++ [b]) ≠ 0x00#8))

end Stream

section Invariants

/-- The reset state meets the invariant of reachable states, whose canonical form is the model's own (log entry 16). -/
def Obligations.ResetMeetsInvariant : Prop := Inv Config.hw State.reset

/-- Every step keeps the invariant of reachable states, whose canonical form is the model's own (log entry 16). -/
def Obligations.StepKeepsInvariant : Prop :=
  ∀ s t : State, Inv Config.hw s → step s = .next t → Inv Config.hw t

/-- Every reachable state meets the invariant, whose canonical form is the model's own (log entry 16); in particular
CURSOR fits its 9 bits. -/
def Obligations.ReachableStatesMeetInvariant : Prop :=
  ∀ s : State, Reachable s → Inv Config.hw s ∧ s.cursor < 2 ^ 9

/-- Every instruction keeps the memory in canonical form, from every state that has it. The canonical form is the
model's own representation of BUF (log entry 16, resting on the unlisted 0x00 of log entry 3), no rule of the spec:
it makes equal contents equal data. -/
def Obligations.MemoryStaysCanonical : Prop :=
  ∀ (i : Instr) (s t : State), s.buf.wf = true → exec i s = .next t → t.buf.wf = true

/-- ABORT and GUARD are dead on this hardware, and at every capacity of at least 264. -/
def Obligations.AbortAndGuardNeverSelected : Prop :=
  ∀ (cfg : Config) (s : State) (b : Byte), 264 ≤ cfg.cap → Inv cfg s →
    selectArm cfg s b ≠ .abort b ∧ selectArm cfg s b ≠ .guard b

/-- Two decoder states that agree on CURSOR, EXPECTED, the staged bytes and, once it matters, FLAGS are
indistinguishable: the same request gives the same result and leaves them agreeing. Every idle state agrees with
the reset state, so no output depends on what BUF holds at power-on. -/
def Obligations.DeadStateIsUnobservable : Prop :=
  (∀ (s t : State) (r : Request) (rest : List Request), s.buf.wf = true → t.buf.wf = true → Agree s t →
    s.inbox = r :: rest → t.inbox = r :: rest →
    ∃ s' t', step s = .next s' ∧ step t = .next t' ∧ Agree s' t' ∧ s'.result = t'.result ∧ s'.inbox = t'.inbox ∧
      s'.buf.wf = true ∧ t'.buf.wf = true) ∧
  (∀ s : State, Idle s → Agree s State.reset)

/-- No behaviour differs between two capacities of at least 264. -/
def Obligations.CapacityIsUnobservable : Prop :=
  ∀ (cfg cfg' : Config) (s : State) (chunk : List Byte), 264 ≤ cfg.cap → 264 ≤ cfg'.cap →
    cfg.len255Accept = cfg'.len255Accept → Inv cfg s → feedBytes cfg chunk s = feedBytes cfg' chunk s

end Invariants
end

