-- ==== Sys2Proof/Laws/State.lean ====
section
/-! SUPPORT. What each state update does to each field, so that no later proof unfolds a record update. -/

namespace Sys2Proof.Machine

section ToIdle
variable (s : State)

@[simp] theorem toIdle_cursor : (toIdle s).cursor = 0 := rfl
@[simp] theorem toIdle_expected : (toIdle s).expected = none := rfl
@[simp] theorem toIdle_flags : (toIdle s).flags = s.flags := rfl
@[simp] theorem toIdle_buf : (toIdle s).buf = s.buf := rfl
@[simp] theorem toIdle_inbox : (toIdle s).inbox = s.inbox := rfl
@[simp] theorem toIdle_result : (toIdle s).result = s.result := rfl

end ToIdle

section Deliver
variable (r : Result) (s : State)

@[simp] theorem deliver_cursor : (deliver r s).cursor = s.cursor := rfl
@[simp] theorem deliver_expected : (deliver r s).expected = s.expected := rfl
@[simp] theorem deliver_flags : (deliver r s).flags = s.flags := rfl
@[simp] theorem deliver_buf : (deliver r s).buf = s.buf := rfl
@[simp] theorem deliver_inbox : (deliver r s).inbox = s.inbox := rfl
@[simp] theorem deliver_result : (deliver r s).result = r := rfl

end Deliver

section StoreByte
variable (cfg : Config) (off : Nat) (b : Byte) (s : State)

@[simp] theorem storeByte_cursor : (storeByte cfg off b s).cursor = s.cursor := by
  unfold storeByte; split <;> rfl
@[simp] theorem storeByte_expected : (storeByte cfg off b s).expected = s.expected := by
  unfold storeByte; split <;> rfl
@[simp] theorem storeByte_flags : (storeByte cfg off b s).flags = s.flags := by
  unfold storeByte; split <;> rfl
@[simp] theorem storeByte_inbox : (storeByte cfg off b s).inbox = s.inbox := by
  unfold storeByte; split <;> rfl
@[simp] theorem storeByte_result : (storeByte cfg off b s).result = s.result := by
  unfold storeByte; split <;> rfl

theorem storeByte_buf : (storeByte cfg off b s).buf = if off < cfg.cap then s.buf.write off b else s.buf := by
  unfold storeByte; split <;> rfl

@[simp] theorem storeByte_buf_of_lt (h : off < cfg.cap) : (storeByte cfg off b s).buf = s.buf.write off b := by
  rw [storeByte_buf, if_pos h]

end StoreByte

section Storing
variable (cfg : Config) (b : Byte) (s : State)

@[simp] theorem storing_cursor : (storing cfg b s).cursor = s.cursor + 1 := rfl
theorem storing_expected : (storing cfg b s).expected =
    if s.cursor = offLen then some (frameLen s.flags b) else s.expected := rfl
theorem storing_flags : (storing cfg b s).flags = if s.cursor = offFlags then b else s.flags := rfl
@[simp] theorem storing_buf : (storing cfg b s).buf = (storeByte cfg s.cursor b s).buf := rfl
@[simp] theorem storing_inbox : (storing cfg b s).inbox = s.inbox := by simp [storing]
@[simp] theorem storing_result : (storing cfg b s).result = s.result := by simp [storing]

end Storing

section HostRequest
variable (r : Request) (s : State)

@[simp] theorem hostRequest_cursor : (hostRequest r s).cursor = s.cursor := rfl
@[simp] theorem hostRequest_expected : (hostRequest r s).expected = s.expected := rfl
@[simp] theorem hostRequest_flags : (hostRequest r s).flags = s.flags := rfl
@[simp] theorem hostRequest_buf : (hostRequest r s).buf = s.buf := rfl
@[simp] theorem hostRequest_inbox : (hostRequest r s).inbox = s.inbox ++ [r] := rfl
@[simp] theorem hostRequest_result : (hostRequest r s).result = s.result := rfl

end HostRequest

end Sys2Proof.Machine
end

