-- ==== Sys2Proof/Laws/Memory.lean ====
section
/-! SUPPORT. The laws of `BUF`: a read after a write, and that every memory operation keeps the canonical form. -/

namespace Sys2Proof.Machine

/-- A canonical memory is canonical from any lower offset on. -/
theorem Memory.wfFrom_mono {m : Memory} {lo lo' : Nat} (hle : lo' ≤ lo) (h : Memory.wfFrom lo m = true) :
    Memory.wfFrom lo' m = true := by
  cases m with
  | nil => rfl
  | cons c m =>
    obtain ⟨k, w⟩ := c
    simp only [Memory.wfFrom, Bool.and_eq_true, decide_eq_true_eq] at h ⊢
    exact ⟨⟨by omega, h.1.2⟩, h.2⟩

/-- Below its first offset a canonical memory lists nothing. -/
theorem Memory.read_below {m : Memory} {lo a : Nat} (h : Memory.wfFrom lo m = true) (ha : a < lo) :
    m.read a = unlistedByte := by
  induction m generalizing lo with
  | nil => rfl
  | cons c m ih =>
    obtain ⟨k, w⟩ := c
    simp only [Memory.wfFrom, Bool.and_eq_true, decide_eq_true_eq] at h
    have hk : ¬ a = k := by omega
    simp only [Memory.read, if_neg hk]
    exact ih h.2 (by omega)

/-- A write leaves every other cell alone (20_memory.md R37). -/
theorem Memory.read_write_ne (m : Memory) {a a' : Nat} (v : Byte) (h : a' ≠ a) :
    (m.write a v).read a' = m.read a' := by
  induction m with
  | nil => simp only [Memory.write]; split <;> simp [Memory.read, h]
  | cons c m ih =>
    obtain ⟨k, w⟩ := c
    simp only [Memory.write]
    split
    · split <;> simp [Memory.read, h]
    · split
      · rename_i hk; subst hk
        split <;> simp [Memory.read, h]
      · simp only [Memory.read, ih]

theorem Memory.read_write_from {m : Memory} {lo : Nat} (hm : Memory.wfFrom lo m = true) (a : Nat) (v : Byte) :
    (m.write a v).read a = v := by
  induction m generalizing lo with
  | nil =>
    simp only [Memory.write]; split
    · rename_i hv; simp [Memory.read, hv]
    · simp [Memory.read]
  | cons c m ih =>
    obtain ⟨k, w⟩ := c
    simp only [Memory.wfFrom, Bool.and_eq_true, decide_eq_true_eq] at hm
    simp only [Memory.write]
    split
    · rename_i hk
      split
      · rename_i hv
        simp only [Memory.read, if_neg (show ¬ a = k by omega)]
        exact (Memory.read_below hm.2 (by omega)).trans hv.symm
      · simp [Memory.read]
    · split
      · rename_i hk; subst hk
        split
        · rename_i hv; exact (Memory.read_below hm.2 (by omega)).trans hv.symm
        · simp [Memory.read]
      · rename_i hk
        simp only [Memory.read, if_neg hk]
        exact ih hm.2

/-- A read after a write to the same cell gives the value written (20_memory.md R37). -/
theorem Memory.read_write {m : Memory} (hm : m.wf = true) (a : Nat) (v : Byte) : (m.write a v).read a = v :=
  Memory.read_write_from hm a v

theorem Memory.wfFrom_write {m : Memory} {lo : Nat} (hm : Memory.wfFrom lo m = true) {a : Nat} (ha : lo ≤ a)
    (v : Byte) : Memory.wfFrom lo (m.write a v) = true := by
  induction m generalizing lo with
  | nil =>
    simp only [Memory.write]; split
    · rfl
    · rename_i hv; simp [Memory.wfFrom, ha, hv]
  | cons c m ih =>
    obtain ⟨k, w⟩ := c
    have hm' := hm
    simp only [Memory.wfFrom, Bool.and_eq_true, decide_eq_true_eq] at hm
    simp only [Memory.write]
    split
    · rename_i hk
      split
      · exact hm'
      · rename_i hv
        simp [Memory.wfFrom, ha, hv, hm.2, show a + 1 ≤ k by omega]
        simpa using hm.1.2
    · split
      · rename_i hk; subst hk
        split
        · exact Memory.wfFrom_mono (by omega) hm.2
        · rename_i hv; simp [Memory.wfFrom, ha, hv, hm.2]
      · simp only [Memory.wfFrom, Bool.and_eq_true, decide_eq_true_eq]
        exact ⟨hm.1, ih hm.2 (by omega)⟩

/-- A write keeps the canonical form. -/
theorem Memory.wf_write {m : Memory} (hm : m.wf = true) (a : Nat) (v : Byte) : (m.write a v).wf = true :=
  Memory.wfFrom_write hm (Nat.zero_le a) v

/-- A write lists no cell but the one written. -/
theorem Memory.mem_write {m : Memory} {a : Nat} {v : Byte} {c : Host.Cell} (h : c ∈ m.write a v) :
    c ∈ m ∨ c.1 = a := by
  induction m with
  | nil =>
    simp only [Memory.write] at h
    split at h
    · simp at h
    · simp at h; exact .inr (by rw [h])
  | cons d m ih =>
    obtain ⟨k, w⟩ := d
    simp only [Memory.write] at h
    split at h
    · split at h
      · exact .inl h
      · rcases List.mem_cons.mp h with rfl | h
        · exact .inr rfl
        · exact .inl h
    · split at h
      · split at h
        · exact .inl (List.mem_cons_of_mem _ h)
        · rcases List.mem_cons.mp h with rfl | h
          · exact .inr rfl
          · exact .inl (List.mem_cons_of_mem _ h)
      · rcases List.mem_cons.mp h with rfl | h
        · exact .inl (List.mem_cons_self)
        · exact (ih h).imp (List.mem_cons_of_mem _) id

@[simp] theorem Memory.readRange_length (m : Memory) (a n : Nat) : (m.readRange a n).length = n := by
  induction n generalizing a with
  | zero => rfl
  | succ n ih => simp [Memory.readRange, ih]

/-- The last byte of a range stands at its end. -/
theorem Memory.readRange_succ (m : Memory) (a n : Nat) :
    m.readRange a (n + 1) = m.readRange a n ++ [m.read (a + n)] := by
  induction n generalizing a with
  | zero => rfl
  | succ n ih =>
    rw [Memory.readRange, ih, Memory.readRange, List.cons_append]
    rw [show a + 1 + n = a + (n + 1) by omega]

/-- Byte `i` of a range is the cell `i` further on. -/
theorem Memory.readRange_getElem? (m : Memory) (a : Nat) {n i : Nat} (h : i < n) :
    (m.readRange a n)[i]? = some (m.read (a + i)) := by
  induction n generalizing a i with
  | zero => omega
  | succ n ih =>
    cases i with
    | zero => rfl
    | succ i =>
      simp only [Memory.readRange, List.getElem?_cons_succ]
      rw [ih (a + 1) (by omega), show a + 1 + i = a + (i + 1) by omega]

/-- Two ranges are equal when their cells are. -/
theorem Memory.readRange_congr {m m' : Memory} {a n : Nat} (h : ∀ i, i < n → m.read (a + i) = m'.read (a + i)) :
    m.readRange a n = m'.readRange a n := by
  induction n generalizing a with
  | zero => rfl
  | succ n ih =>
    simp only [Memory.readRange]
    rw [show m.read a = m'.read a from h 0 (by omega)]
    congr 1
    exact ih fun i hi => by have := h (i + 1) (by omega); rwa [show a + (i + 1) = a + 1 + i by omega] at this

/-- The reset memory is canonical. -/
theorem reset_memory_wf : State.reset.buf.wf = true := by decide

/-- A store keeps the canonical form. -/
theorem storeByte_wf (cfg : Config) (off : Nat) (b : Byte) {s : State} (h : s.buf.wf = true) :
    (storeByte cfg off b s).buf.wf = true := by
  rw [storeByte_buf]; split
  · exact Memory.wf_write h _ _
  · exact h

/-- A store leaves every other cell alone. -/
theorem storeByte_read_ne (cfg : Config) {off a : Nat} (b : Byte) (s : State) (h : a ≠ off) :
    (storeByte cfg off b s).buf.read a = s.buf.read a := by
  rw [storeByte_buf]; split
  · exact Memory.read_write_ne _ _ h
  · rfl

/-- A store inside the buffer is read back. -/
theorem storeByte_read_same {cfg : Config} {off : Nat} (b : Byte) {s : State} (hwf : s.buf.wf = true)
    (h : off < cfg.cap) : (storeByte cfg off b s).buf.read off = b := by
  rw [storeByte_buf_of_lt _ _ _ _ h, Memory.read_write hwf]

/-- After a storing step the staged bytes are the old ones and the byte stored. -/
theorem staged_storing {cfg : Config} (b : Byte) {s : State} (hwf : s.buf.wf = true) (h : s.cursor < cfg.cap) :
    staged (storing cfg b s) = staged s ++ [b] := by
  unfold staged
  rw [storing_cursor, storing_buf, Memory.readRange_succ, Nat.zero_add, storeByte_read_same b hwf h]
  congr 1
  refine Memory.readRange_congr fun i hi => storeByte_read_ne _ _ _ ?_
  omega

end Sys2Proof.Machine
end

