-- ==== Sys2Proof/Laws/Values.lean ====
section
/-! SUPPORT. One lemma per pure function: the frame length as a number, the fields and their bytes, the checksum. -/

namespace Sys2Proof.Machine

@[simp] theorem capBytes_eq : capBytes = 270 := rfl
@[simp] theorem maxPayload_eq : maxPayload = 254 := rfl
@[simp] theorem hdrLen_eq : hdrLen = 8 := rfl
@[simp] theorem offFlags_eq : offFlags = 2 := rfl
@[simp] theorem offLen_eq : offLen = 3 := rfl
@[simp] theorem hw_cap : Config.hw.cap = 270 := rfl
@[simp] theorem hw_len255Accept : Config.hw.len255Accept = true := rfl
@[simp] theorem syncByte_eq : syncByte = 0xFF#8 := rfl
@[simp] theorem versionByte_eq : versionByte = 0x01#8 := rfl
@[simp] theorem unlistedByte_eq : unlistedByte = 0x00#8 := rfl

/-- The frame length as a number: no wrap (40_packet_helpers.md R74, R79). -/
theorem frameLen_toNat (f n : Byte) :
    (frameLen f n).toNat = n.toNat + 8 + if ckPresent f then 1 else 0 := by
  have hn := n.isLt
  unfold frameLen
  cases ckPresent f <;> simp [BitVec.toNat_add, BitVec.toNat_setWidth] <;> omega

theorem frameLen_bounds (f n : Byte) : 8 ≤ (frameLen f n).toNat ∧ (frameLen f n).toNat ≤ 264 := by
  have hn := n.isLt
  rw [frameLen_toNat]
  split <;> omega

@[simp] theorem ckPresent_flagsByte (r : BitVec 7) (ck : Bool) : ckPresent (flagsByte r ck) = ck := by
  unfold ckPresent flagsByte
  rw [BitVec.getLsbD_append]; simp

@[simp] theorem reservedOf_flagsByte (r : BitVec 7) (ck : Bool) : reservedOf (flagsByte r ck) = r := by
  unfold reservedOf flagsByte
  refine BitVec.eq_of_getLsbD_eq fun i hi => ?_
  rw [BitVec.getLsbD_extractLsb', BitVec.getLsbD_append]
  simp [hi, show ¬ (1 + i < 1) by omega]

/-- A flags byte is its reserved bits and its bit 0 (30_encoding.md R54). -/
theorem flagsByte_of (f : Byte) : flagsByte (reservedOf f) (ckPresent f) = f := by
  revert f; decide

theorem ackOf_eq_msb (raw : Half) : ackOf raw = raw.getLsbD 15 := by
  have key : raw &&& 0x8000#16 = if raw.getLsbD 15 then 0x8000#16 else 0#16 := by
    refine BitVec.eq_of_getLsbD_eq fun i hi => ?_
    rw [BitVec.getLsbD_and]
    by_cases h : i = 15
    · subst h; cases raw.getLsbD 15 <;> rfl
    · have h0 : (0x8000#16).getLsbD i = false := by
        revert h; revert i; decide
      rw [h0]; cases raw.getLsbD 15 <;> simp [h0]
  unfold ackOf
  rw [key]; cases raw.getLsbD 15 <;> rfl

theorem cmdOf_eq_setWidth (raw : Half) : cmdOf raw = raw.setWidth 15 := by
  unfold cmdOf
  refine BitVec.eq_of_getLsbD_eq fun i hi => ?_
  have h1 : (0x7FFF#16).getLsbD i = true := by revert hi; revert i; decide
  simp only [BitVec.getLsbD_setWidth, BitVec.getLsbD_and, h1, Bool.and_true]

@[simp] theorem ackOf_rawOf (a : Bool) (c : BitVec 15) : ackOf (rawOf a c) = a := by
  rw [ackOf_eq_msb, rawOf, BitVec.getLsbD_append]; cases a <;> simp

@[simp] theorem cmdOf_rawOf (a : Bool) (c : BitVec 15) : cmdOf (rawOf a c) = c := by
  rw [cmdOf_eq_setWidth, rawOf]
  refine BitVec.eq_of_getLsbD_eq fun i hi => ?_
  rw [BitVec.getLsbD_setWidth, BitVec.getLsbD_append, if_pos hi]
  simp [hi]

/-- A raw command id is its acknowledgement flag and its command (30_encoding.md R57). -/
theorem rawOf_of (raw : Half) : rawOf (ackOf raw) (cmdOf raw) = raw := by
  rw [ackOf_eq_msb, cmdOf_eq_setWidth, rawOf]
  refine BitVec.eq_of_getLsbD_eq fun i hi => ?_
  rw [BitVec.getLsbD_append]
  by_cases h : i < 15
  · rw [if_pos h, BitVec.getLsbD_setWidth]; simp [h]
  · obtain rfl : i = 15 := by omega
    cases raw.getLsbD 15 <;> rfl

theorem be16Get_getLsbD (hi lo : Byte) {i : Nat} (h : i < 16) :
    (be16Get hi lo).getLsbD i = if i < 8 then lo.getLsbD i else hi.getLsbD (i - 8) := by
  unfold be16Get
  rw [BitVec.getLsbD_or, BitVec.getLsbD_shiftLeft, BitVec.getLsbD_setWidth, BitVec.getLsbD_setWidth]
  by_cases h8 : i < 8
  · simp [h8, h]
  · have := BitVec.getLsbD_of_ge lo i (by omega)
    simp [h8, h, this, show i - 8 < 16 by omega]

/-- Reading back the two bytes of a field (40_packet_helpers.md R73). -/
theorem be16Get_put (v : Half) : be16Get ((v >>> 8).setWidth 8) (v.setWidth 8) = v := by
  refine BitVec.eq_of_getLsbD_eq fun i hi => ?_
  rw [be16Get_getLsbD _ _ hi, BitVec.getLsbD_setWidth, BitVec.getLsbD_setWidth, BitVec.getLsbD_ushiftRight]
  split
  · rename_i h; simp [h]
  · simp [show i - 8 < 8 by omega, show 8 + (i - 8) = i by omega]

/-- The two bytes of a field put together (40_packet_helpers.md R73). -/
theorem be16Put_get (hi lo : Byte) : be16Put (be16Get hi lo) = [hi, lo] := by
  unfold be16Put
  congr 1
  · refine BitVec.eq_of_getLsbD_eq fun i h => ?_
    rw [BitVec.getLsbD_setWidth, BitVec.getLsbD_ushiftRight, be16Get_getLsbD _ _ (by omega)]
    simp [h]
  · congr 1
    refine BitVec.eq_of_getLsbD_eq fun i h => ?_
    rw [BitVec.getLsbD_setWidth, be16Get_getLsbD _ _ (by omega)]
    simp [h]

theorem xor8_nil : xor8 [] = 0x00#8 := rfl

theorem foldl_xor (acc : Byte) (s : List Byte) : s.foldl (fun acc b => acc ^^^ b) acc = acc ^^^ xor8 s := by
  unfold xor8
  induction s generalizing acc with
  | nil => simp
  | cons b s ih => simp only [List.foldl_cons]; rw [ih (acc ^^^ b), ih (0x00#8 ^^^ b)]; simp [BitVec.xor_assoc]

theorem xor8_cons (b : Byte) (s : List Byte) : xor8 (b :: s) = b ^^^ xor8 s := by
  show s.foldl _ (0x00#8 ^^^ b) = _
  rw [foldl_xor]; simp

theorem xor8_append (s t : List Byte) : xor8 (s ++ t) = xor8 s ^^^ xor8 t := by
  induction s with
  | nil => simp [xor8_nil]
  | cons b s ih => simp [xor8_cons, ih, BitVec.xor_assoc]

theorem wireFrame_eq (version flags : Byte) (vendor raw : Half) (payload tail : List Byte) :
    wireFrame version flags vendor raw payload tail =
      syncByte :: version :: flags :: BitVec.ofNat 8 payload.length :: (vendor >>> 8).setWidth 8 ::
        vendor.setWidth 8 :: (raw >>> 8).setWidth 8 :: raw.setWidth 8 :: (payload ++ tail) := by
  simp [wireFrame, be16Put]

@[simp] theorem wireFrame_length (version flags : Byte) (vendor raw : Half) (payload tail : List Byte) :
    (wireFrame version flags vendor raw payload tail).length = payload.length + 8 + tail.length := by
  simp [wireFrame_eq]; omega

end Sys2Proof.Machine
end

