-- ==== Sys2Proof/Laws/Codec.lean ====
section
/-! SUPPORT. What single-frame decode, the encoder and one STEP can do, each said once. -/

namespace Sys2Proof.Machine

/-- The checksum test fails exactly when the exclusive-or of all bytes is not zero (42_frame_decode.md R123). -/
theorem checksum_test {frame : List Byte} (h : frame ≠ []) :
    (some (xor8 frame.dropLast) != frame.getLast?) = (xor8 frame != 0x00#8) := by
  obtain ⟨init, last, rfl⟩ := List.eq_nil_or_concat frame |>.resolve_left h
  rw [List.concat_eq_append, List.dropLast_concat, List.getLast?_concat, xor8_append, xor8_cons, xor8_nil,
    BitVec.xor_zero, Bool.eq_iff_iff, bne_iff_ne, bne_iff_ne, ne_eq, ne_eq, Option.some.injEq,
    BitVec.xor_eq_zero_iff]

/-- DECODE of at least 8 bytes, as three tests. -/
theorem decodePacket_cons (cfg : Config) (b0 b1 f n v1 v0 c1 c0 : Byte) (body : List Byte) :
    decodePacket cfg (b0 :: b1 :: f :: n :: v1 :: v0 :: c1 :: c0 :: body) =
      if lengthRefused cfg n then none
      else if body.length + 8 < (frameLen f n).toNat then none
      else if ckPresent f && (xor8 (b0 :: b1 :: f :: n :: v1 :: v0 :: c1 :: c0 :: body) != 0x00#8) then none
      else some (mkPacket (be16Get v1 v0) (be16Get c1 c0) f (body.take n.toNat)) := by
  rw [← checksum_test (by simp)]
  rfl

/-- DECODE of fewer than 8 bytes. -/
theorem decodePacket_short (cfg : Config) {frame : List Byte} (h : frame.length < 8) :
    decodePacket cfg frame = none := by
  unfold decodePacket
  split
  · simp only [List.length_cons] at h; omega
  · rfl

/-- A sequence that decodes has at least 8 bytes. -/
theorem decodePacket_length {cfg : Config} {frame : List Byte} {p : Packet} (h : decodePacket cfg frame = some p) :
    8 ≤ frame.length := by
  by_contra hlt
  rw [decodePacket_short cfg (by omega)] at h
  cases h

/-- DECODE of a frame laid out as on the wire, with its checksum byte or nothing after the payload. -/
theorem decodePacket_wire (cfg : Config) (version f : Byte) (vendor raw : Half) {payload tail : List Byte}
    (hp : payload.length ≤ 255) (hcfg : lengthRefused cfg (BitVec.ofNat 8 payload.length) = false)
    (htail : tail.length = if ckPresent f then 1 else 0) :
    decodePacket cfg (wireFrame version f vendor raw payload tail) =
      if ckPresent f && (xor8 (wireFrame version f vendor raw payload tail) != 0x00#8) then none
      else some (mkPacket vendor raw f payload) := by
  have hn : (BitVec.ofNat 8 payload.length).toNat = payload.length := by
    rw [BitVec.toNat_ofNat]; omega
  rw [wireFrame_eq, decodePacket_cons, hcfg, frameLen_toNat, hn, List.length_append, htail]
  simp only [be16Get_put, List.take_left']
  rw [if_neg (by simp), if_neg (by omega)]

/-- A short enough payload is encoded. -/
theorem encodeFrame_ok (v c : Half) {p : List Byte} (f : Byte) (h : p.length ≤ 254) :
    encodeFrame v c p f = .ok (wireFrame versionByte f v c p
      (if ckPresent f then [xor8 (wireFrame versionByte f v c p [])] else [])) := by
  unfold encodeFrame
  rw [if_neg (by simp only [maxPayload]; omega)]
  split <;> simp [wireFrame]

/-- A frame comes only from a short enough payload. -/
theorem encodeFrame_ok_length {v c : Half} {p : List Byte} {f : Byte} {frame : List Byte}
    (h : encodeFrame v c p f = .ok frame) : p.length ≤ 254 := by
  unfold encodeFrame at h
  split at h
  · cases h
  · simp only [maxPayload] at *; omega

section Step
variable (cfg : Config) (b : Byte) (s : State)

/-- A stray byte while idle. -/
theorem stepByte_drop (h0 : s.cursor = 0) (hb : b ≠ syncByte) : stepByte cfg b s = (s, none) := by
  unfold stepByte; rw [if_pos ⟨h0, hb⟩]

/-- No room in the buffer. -/
theorem stepByte_guard (h0 : s.cursor ≠ 0) (hc : cfg.cap ≤ s.cursor) : stepByte cfg b s = (toIdle s, none) := by
  unfold stepByte
  rw [if_neg (fun h => h0 h.1), if_neg (by omega)]

/-- A length byte whose frame does not fit. -/
theorem stepByte_abort (hc : s.cursor < cfg.cap) (hu : unrepresentable cfg b s = true) :
    stepByte cfg b s = (toIdle (storeByte cfg offLen b s), none) := by
  have h3 : s.cursor = 3 := by simp [unrepresentable] at hu; exact hu.1
  unfold stepByte
  rw [if_neg (by rintro ⟨h, -⟩; omega), if_pos hc, if_pos hu]

/-- Any other byte is stored, and the completion test follows. -/
theorem stepByte_store (hidle : ¬ (s.cursor = 0 ∧ b ≠ syncByte)) (hc : s.cursor < cfg.cap)
    (hu : unrepresentable cfg b s = false) : stepByte cfg b s = completing cfg (storing cfg b s) := by
  unfold stepByte
  rw [if_neg hidle, if_pos hc, if_neg (by simp [hu])]

/-- Everything one STEP can do. -/
theorem stepByte_cases :
    (s.cursor = 0 ∧ b ≠ syncByte ∧ stepByte cfg b s = (s, none)) ∨
    (cfg.cap ≤ s.cursor ∧ ¬ (s.cursor = 0 ∧ b ≠ syncByte) ∧ stepByte cfg b s = (toIdle s, none)) ∨
    (s.cursor = 3 ∧ 3 < cfg.cap ∧ cfg.cap < (frameLen s.flags b).toNat ∧
      stepByte cfg b s = (toIdle (storeByte cfg offLen b s), none)) ∨
    (s.cursor < cfg.cap ∧ ¬ (s.cursor = 0 ∧ b ≠ syncByte) ∧ unrepresentable cfg b s = false ∧
      frameComplete (storing cfg b s) = true ∧
      stepByte cfg b s = (toIdle (storing cfg b s), decodePacket cfg (staged (storing cfg b s)))) ∨
    (s.cursor < cfg.cap ∧ ¬ (s.cursor = 0 ∧ b ≠ syncByte) ∧ unrepresentable cfg b s = false ∧
      frameComplete (storing cfg b s) = false ∧ stepByte cfg b s = (storing cfg b s, none)) := by
  by_cases hidle : s.cursor = 0 ∧ b ≠ syncByte
  · exact .inl ⟨hidle.1, hidle.2, stepByte_drop cfg b s hidle.1 hidle.2⟩
  by_cases hc : s.cursor < cfg.cap
  · cases hu : unrepresentable cfg b s with
    | true =>
      have h := hu
      simp only [unrepresentable, Bool.and_eq_true, decide_eq_true_eq, offLen] at h
      exact .inr (.inr (.inl ⟨h.1, by omega, h.2, stepByte_abort cfg b s hc hu⟩))
    | false =>
      have hst := stepByte_store cfg b s hidle hc hu
      cases hf : frameComplete (storing cfg b s) with
      | true =>
        exact .inr (.inr (.inr (.inl ⟨hc, hidle, rfl, rfl, by rw [hst, completing, if_pos hf]⟩)))
      | false =>
        exact .inr (.inr (.inr (.inr ⟨hc, hidle, rfl, rfl, by rw [hst, completing, if_neg (by simp [hf])]⟩)))
  · refine .inr (.inl ⟨by omega, hidle, ?_⟩)
    unfold stepByte
    rw [if_neg hidle, if_neg hc]

end Step

@[simp] theorem feedBytes_nil (cfg : Config) (s : State) : feedBytes cfg [] s = (s, []) := rfl

theorem feedBytes_cons (cfg : Config) (b : Byte) (bs : List Byte) (s : State) :
    feedBytes cfg (b :: bs) s = ((feedBytes cfg bs (stepByte cfg b s).1).1,
      (stepByte cfg b s).2.toList ++ (feedBytes cfg bs (stepByte cfg b s).1).2) := rfl

end Sys2Proof.Machine
end

