-- ==== Sys2Proof/Laws/PerInstr.lean ====
section
/-! SUPPORT. Per instruction: how many bytes its encoding has, by the layout of spec/30_encoding.md R50 and R51. -/

namespace Sys2Proof.Laws.EncodedSize

open Sys2Proof.Machine

/-- A well-formed frame instruction has 8 to 264 bytes, as many as its own header declares (R51, R60); an arm of STEP
one input byte (R64); any other operation has no encoding (R62). -/
def Statement (i : Instr) : Prop :=
  match encode i with
  | some bytes =>
    (i.isFrame = true → i.wf = true → 8 ≤ bytes.length ∧ bytes.length ≤ 264 ∧
      ∃ f n, bytes[2]? = some f ∧ bytes[3]? = some n ∧ bytes.length = (frameLen f n).toNat) ∧
    (i.isFrame = false → bytes.length = 1)
  | none => i.isFrame = false

/-- The size of a frame laid out with a tail as long as its flags byte says. -/
theorem wire_size (v f : Byte) (w raw : Half) {p tail : List Byte} (hp : p.length ≤ 255)
    (ht : tail.length = if ckPresent f then 1 else 0) :
    8 ≤ (wireFrame v f w raw p tail).length ∧ (wireFrame v f w raw p tail).length ≤ 264 ∧
      ∃ f' n, (wireFrame v f w raw p tail)[2]? = some f' ∧ (wireFrame v f w raw p tail)[3]? = some n ∧
        (wireFrame v f w raw p tail).length = (frameLen f' n).toNat := by
  have hl : (wireFrame v f w raw p tail).length = (frameLen f (BitVec.ofNat 8 p.length)).toNat := by
    rw [wireFrame_length, frameLen_toNat, BitVec.toNat_ofNat, ht]; omega
  have hb := frameLen_bounds f (BitVec.ofNat 8 p.length)
  exact ⟨by omega, by omega, f, _, by rw [wireFrame_eq]; rfl, by rw [wireFrame_eq]; rfl, hl⟩

theorem frameCmd (v : Byte) (r : BitVec 7) (w : Half) (c : BitVec 15) (p : List Byte)
    : Statement (.frameCmd v r w c p) :=
  ⟨fun _ h => wire_size _ _ _ _ (by simpa [Instr.wf, Instr.payloadFits] using h) (by simp), fun h => (nomatch h)⟩
theorem frameCmdCk (v : Byte) (r : BitVec 7) (w : Half) (c : BitVec 15) (p : List Byte) (k : Byte)
    : Statement (.frameCmdCk v r w c p k) :=
  ⟨fun _ h => wire_size _ _ _ _ (by simpa [Instr.wf, Instr.payloadFits] using h) (by simp), fun h => (nomatch h)⟩
theorem frameAck (v : Byte) (r : BitVec 7) (w : Half) (c : BitVec 15) (p : List Byte)
    : Statement (.frameAck v r w c p) :=
  ⟨fun _ h => wire_size _ _ _ _ (by simpa [Instr.wf, Instr.payloadFits] using h) (by simp), fun h => (nomatch h)⟩
theorem frameAckCk (v : Byte) (r : BitVec 7) (w : Half) (c : BitVec 15) (p : List Byte) (k : Byte)
    : Statement (.frameAckCk v r w c p k) :=
  ⟨fun _ h => wire_size _ _ _ _ (by simpa [Instr.wf, Instr.payloadFits] using h) (by simp), fun h => (nomatch h)⟩
theorem drop (b : Byte) : Statement (.drop b) := ⟨fun h => (nomatch h), fun _ => rfl⟩
theorem sync : Statement .sync := ⟨fun h => (nomatch h), fun _ => rfl⟩
theorem stage (b : Byte) : Statement (.stage b) := ⟨fun h => (nomatch h), fun _ => rfl⟩
theorem stageFlags (b : Byte) : Statement (.stageFlags b) := ⟨fun h => (nomatch h), fun _ => rfl⟩
theorem stageLen (b : Byte) : Statement (.stageLen b) := ⟨fun h => (nomatch h), fun _ => rfl⟩
theorem abort (b : Byte) : Statement (.abort b) := ⟨fun h => (nomatch h), fun _ => rfl⟩
theorem completeEmit (b : Byte) : Statement (.completeEmit b) := ⟨fun h => (nomatch h), fun _ => rfl⟩
theorem completeFail (b : Byte) : Statement (.completeFail b) := ⟨fun h => (nomatch h), fun _ => rfl⟩
theorem guard (b : Byte) : Statement (.guard b) := ⟨fun h => (nomatch h), fun _ => rfl⟩
theorem step (b : Byte) : Statement (.step b) := rfl
theorem feed (l : List Byte) : Statement (.feed l) := rfl
theorem srst : Statement .srst := rfl
theorem decode (l : List Byte) : Statement (.decode l) := rfl
theorem encode (v c : Half) (p : List Byte) (f : Byte) : Statement (.encode v c p f) := rfl
theorem xor8 (l : List Byte) : Statement (.xor8 l) := rfl
theorem be16Get (hi lo : Byte) : Statement (.be16Get hi lo) := rfl
theorem be16Put (v : Half) : Statement (.be16Put v) := rfl
theorem frameLen (f n : Byte) : Statement (.frameLen f n) := rfl
theorem ackOf (raw : Half) : Statement (.ackOf raw) := rfl
theorem cmdOf (raw : Half) : Statement (.cmdOf raw) := rfl
theorem statusOf (a : Bool) (p : List Byte) : Statement (.statusOf a p) := rfl
theorem mkPacket (v raw : Half) (f : Byte) (p : List Byte) : Statement (.mkPacket v raw f p) := rfl

end Sys2Proof.Laws.EncodedSize
end

