-- ==== Sys2Proof/Laws/Step.lean ====
section
/-! SUPPORT. The storing part of a step, the completion test, the arm selection and one machine step, each said
once. -/

namespace Sys2Proof.Machine

/-- The storing part within capacity, as one record. -/
theorem storing_of_lt {cfg : Config} (b : Byte) {s : State} (h : s.cursor < cfg.cap) :
    storing cfg b s = { s with
      buf := s.buf.write s.cursor b
      flags := if s.cursor = 2 then b else s.flags
      expected := if s.cursor = 3 then some (frameLen s.flags b) else s.expected
      cursor := s.cursor + 1 } := by
  unfold storing storeByte
  rw [if_pos h]

/-- Every declared frame fits this hardware's buffer (41_decoder_fsm.md R109). -/
theorem unrepresentable_eq_false {cfg : Config} (b : Byte) (s : State) (h : 264 ≤ cfg.cap) :
    unrepresentable cfg b s = false := by
  have hb := (frameLen_bounds s.flags b).2
  unfold unrepresentable
  rw [decide_eq_false (p := cfg.cap < _) (by omega), Bool.and_false]

/-- The completion test after a store (41_decoder_fsm.md R97); at offset 3 it is false, a frame having at least 8
bytes. -/
theorem frameComplete_storing (cfg : Config) (b : Byte) (s : State) :
    frameComplete (storing cfg b s) = true ↔
      s.cursor ≠ 3 ∧ ∃ e, s.expected = some e ∧ e.toNat = s.cursor + 1 := by
  unfold frameComplete
  rw [storing_expected]
  by_cases h : s.cursor = 3
  · have hb := (frameLen_bounds s.flags b).1
    simp [h]; omega
  · rw [if_neg h]
    cases s.expected with
    | none => simp
    | some e => simpa [h] using eq_comm

/-- What one STEP leaves unchanged, and how far CURSOR can move. -/
theorem stepByte_frame (cfg : Config) (b : Byte) (s : State) :
    (stepByte cfg b s).1.inbox = s.inbox ∧ (stepByte cfg b s).1.result = s.result ∧
      (s.cursor ≠ 2 → (stepByte cfg b s).1.flags = s.flags) ∧
      (∀ a, a ≠ s.cursor → (stepByte cfg b s).1.buf.read a = s.buf.read a) ∧
      (stepByte cfg b s).1.cursor ≤ s.cursor + 1 := by
  have hst : s.cursor ≠ 2 → (storing cfg b s).flags = s.flags := fun h => if_neg h
  have hrd : ∀ a, a ≠ s.cursor → (storing cfg b s).buf.read a = s.buf.read a :=
    fun a ha => storeByte_read_ne cfg b s ha
  rcases stepByte_cases cfg b s with h | h | h | h | h
  · rw [h.2.2]; simp
  · rw [h.2.2]; simp
  · rw [h.2.2.2]
    exact ⟨by simp, by simp, by simp, fun a ha => storeByte_read_ne cfg b s (by rwa [h.1] at ha), by simp⟩
  · rw [h.2.2.2.2]; exact ⟨by simp, by simp, hst, hrd, by simp⟩
  · rw [h.2.2.2.2]; exact ⟨by simp, by simp, hst, hrd, by simp⟩

/-- One STEP keeps the memory canonical. -/
theorem stepByte_wf (cfg : Config) (b : Byte) {s : State} (h : s.buf.wf = true) :
    (stepByte cfg b s).1.buf.wf = true := by
  rcases stepByte_cases cfg b s with h' | h' | h' | h' | h'
  · rw [h'.2.2]; exact h
  · rw [h'.2.2]; exact h
  · rw [h'.2.2.2]; exact storeByte_wf _ _ _ h
  · rw [h'.2.2.2.2]; exact storeByte_wf _ _ _ h
  · rw [h'.2.2.2.2]; exact storeByte_wf _ _ _ h

/-- FEED keeps the memory canonical. -/
theorem feedBytes_wf (cfg : Config) (chunk : List Byte) {s : State} (h : s.buf.wf = true) :
    (feedBytes cfg chunk s).1.buf.wf = true := by
  induction chunk generalizing s with
  | nil => exact h
  | cons b bs ih => rw [feedBytes_cons]; exact ih (stepByte_wf cfg b h)

/-- The arm selection reads no pending request. -/
theorem selectArm_inbox (cfg : Config) (s : State) (l : List Request) (b : Byte) :
    selectArm cfg { s with inbox := l } b = selectArm cfg s b := by
  unfold selectArm
  by_cases h : s.cursor < cfg.cap
  · rw [storing_of_lt b h, storing_of_lt (cfg := cfg) (s := { s with inbox := l }) b h]; rfl
  · have h' : cfg.cap ≤ s.cursor := by omega
    rw [if_pos h', if_pos (show cfg.cap ≤ ({ s with inbox := l } : State).cursor from h')]

/-- Everything one machine step can do. -/
theorem step_cases (s : State) : (s.inbox = [] ∧ step s = .next s) ∨
    ∃ r rest, s.inbox = r :: rest ∧ step s = exec (fetchInstr s r) { s with inbox := rest } := by
  unfold step
  split
  · exact .inl ⟨‹_›, rfl⟩
  · exact .inr ⟨_, _, ‹_›, rfl⟩

end Sys2Proof.Machine

namespace Sys2Proof

/-- Decoding of bytes laid out as a frame up to its payload: the frame kind by flags bit 0 and the acknowledgement
bit (30_encoding.md R64), with the checksum byte taken from what follows. -/
theorem decodeFrame_wire (version f : Byte) (vendor raw : Half) {p : List Byte} (t : List Byte)
    (h : p.length ≤ 255) :
    decodeFrame (Machine.wireFrame version f vendor raw p [] ++ t) =
      match Machine.ckPresent f, Machine.ackOf raw, t with
      | false, false, rest =>
        .ok (.frameCmd version (Machine.reservedOf f) vendor (Machine.cmdOf raw) p, rest)
      | false, true, rest =>
        .ok (.frameAck version (Machine.reservedOf f) vendor (Machine.cmdOf raw) p, rest)
      | true, false, k :: rest =>
        .ok (.frameCmdCk version (Machine.reservedOf f) vendor (Machine.cmdOf raw) p k, rest)
      | true, true, k :: rest =>
        .ok (.frameAckCk version (Machine.reservedOf f) vendor (Machine.cmdOf raw) p k, rest)
      | true, _, [] => .error .truncated := by
  have hn : (BitVec.ofNat 8 p.length).toNat = p.length := by rw [BitVec.toNat_ofNat]; omega
  rw [Machine.wireFrame_eq]
  cases h1 : Machine.ckPresent f <;> cases h2 : Machine.ackOf raw <;> cases t <;>
    simp [decodeFrame, hn, Machine.be16Get_put, h1, h2]

end Sys2Proof
end

