-- ==== Sys2Proof/Tests/Slice0.lean ====
section
/-! SUPPORT. Smoke tests, the spec's worked examples (95_test_vectors.md), and for every statement with hypotheses a
witness that they can be met together. -/

namespace Sys2Proof.Tests

open Sys2Proof Sys2Proof.Machine Sys2Proof.Safety

/-- What an instruction hands to the host. -/
def resultOf (i : Instr) (s : State) : Option Result :=
  match exec i s with
  | .next t => some t.result
  | .fault _ => none
  | .refused _ => none

/-- The decoder registers an instruction leaves. -/
def regsAfter (i : Instr) (s : State) : Option (Nat × Option (BitVec 9) × Byte) :=
  match exec i s with
  | .next t => some (t.cursor, t.expected, t.flags)
  | .fault _ => none
  | .refused _ => none

/-- One cell of BUF after an instruction. -/
def cellAfter (i : Instr) (s : State) (a : Nat) : Option Byte :=
  match exec i s with
  | .next t => some (t.buf.read a)
  | .fault _ => none
  | .refused _ => none

/-- Bytes written to BUF from offset `a` on. -/
def fill : Nat → List Byte → Memory → Memory
  | _, [], m => m
  | a, b :: bs, m => fill (a + 1) bs (m.write a b)

/-- A decoder holding the first bytes of a frame. -/
def holding (bytes : List Byte) (e : Option (BitVec 9)) (f : Byte) : State :=
  { State.reset with cursor := bytes.length, expected := e, flags := f, buf := fill 0 bytes [] }

/-- The frames F1, F2, F3 of 95_test_vectors.md. -/
def frame1 : List Byte := [0xFF#8, 0x01#8, 0x00#8, 0x00#8, 0x00#8, 0x0A#8, 0x00#8, 0x03#8]
def frame2 : List Byte := [0xFF#8, 0x01#8, 0x00#8, 0x01#8, 0x00#8, 0x0A#8, 0x80#8, 0x03#8, 0x01#8]
def frame3 : List Byte := [0xFF#8, 0x01#8, 0x01#8, 0x02#8, 0x00#8, 0x0A#8, 0x00#8, 0x03#8, 0x10#8, 0x20#8, 0xC4#8]

/-- Their packets K1, K2, K3. -/
def packet1 : Packet :=
  { vendorId := 0x000A#16, rawCommandId := 0x0003#16, command := 0x0003#15, ack := false, flags := 0x00#8,
    payload := [], status := none }
def packet2 : Packet :=
  { vendorId := 0x000A#16, rawCommandId := 0x8003#16, command := 0x0003#15, ack := true, flags := 0x00#8,
    payload := [0x01#8], status := some 0x01#8 }
def packet3 : Packet :=
  { vendorId := 0x000A#16, rawCommandId := 0x0003#16, command := 0x0003#15, ack := false, flags := 0x01#8,
    payload := [0x10#8, 0x20#8], status := none }

/-- Ten of F3's eleven bytes, and seven of F1's eight. -/
def almost3 : State := holding (frame3.take 10) (some 11#9) 0x01#8
def almost1 : State := holding (frame1.take 7) (some 8#9) 0x00#8

/-- The longest frame, all its 264 bytes but the last: length byte 255, checksum flag set, zeros. -/
def almostLongest : State :=
  { State.reset with cursor := 263, expected := some 264#9, flags := 0x01#8,
                     buf := [(0, 0xFF#8), (2, 0x01#8), (3, 0xFF#8)] }

/-- A capacity at which ABORT occurs (V-FSM-13). -/
def cfg16 : Config := { cap := 16, len255Accept := true }

section WellFormedness

theorem test_wf_frame : (Instr.frameCmd 0x01#8 0#7 0x000A#16 3#15 (List.replicate 255 0x00#8)).wf = true := by
  rw [Instr.wf, Instr.payloadFits, List.length_replicate]; rfl
theorem test_illformed_frameCmd :
    (Instr.frameCmd 0x01#8 0#7 0x000A#16 3#15 (List.replicate 256 0x00#8)).wf = false := by
  rw [Instr.wf, Instr.payloadFits, List.length_replicate]; rfl
theorem test_illformed_frameCmdCk :
    (Instr.frameCmdCk 0x01#8 0#7 0x000A#16 3#15 (List.replicate 256 0x00#8) 0x00#8).wf = false := by
  rw [Instr.wf, Instr.payloadFits, List.length_replicate]; rfl
theorem test_illformed_frameAck :
    (Instr.frameAck 0x01#8 0#7 0x000A#16 3#15 (List.replicate 256 0x00#8)).wf = false := by
  rw [Instr.wf, Instr.payloadFits, List.length_replicate]; rfl
theorem test_illformed_frameAckCk :
    (Instr.frameAckCk 0x01#8 0#7 0x000A#16 3#15 (List.replicate 256 0x00#8) 0x00#8).wf = false := by
  rw [Instr.wf, Instr.payloadFits, List.length_replicate]; rfl
theorem test_illformed_drop : (Instr.drop 0xFF#8).wf = false ∧ (Instr.drop 0xFE#8).wf = true := by decide

end WellFormedness

section Decoding

/-- S1, S2, S3 and V-ENC-2: the wire bytes written out by hand. -/
theorem test_decode_frameCmd : decodeFrame (frame1 ++ [0x55#8]) =
    .ok (.frameCmd 0x01#8 0#7 0x000A#16 0x0003#15 [], [0x55#8]) := by rfl
theorem test_decode_frameAck : decodeFrame frame2 =
    .ok (.frameAck 0x01#8 0#7 0x000A#16 0x0003#15 [0x01#8], []) := by rfl
theorem test_decode_frameCmdCk : decodeFrame frame3 =
    .ok (.frameCmdCk 0x01#8 0#7 0x000A#16 0x0003#15 [0x10#8, 0x20#8] 0xC4#8, []) := by rfl
theorem test_decode_frameAckCk :
    decodeFrame [0xFF#8, 0x01#8, 0x01#8, 0x02#8, 0x12#8, 0x34#8, 0xAB#8, 0xCD#8, 0xFF#8, 0x02#8, 0x40#8] =
      .ok (.frameAckCk 0x01#8 0#7 0x1234#16 0x2BCD#15 [0xFF#8, 0x02#8] 0x40#8, []) := by rfl

/-- The reasons for which bytes are no frame. -/
theorem test_reject_tooShort : decodeFrame (frame1.take 7) = .error .tooShort := by rfl
theorem test_reject_notSync : decodeFrame (0x00#8 :: frame1.tail) = .error .notSync := by rfl
theorem test_reject_truncated : decodeFrame (frame2.take 8) = .error .truncated ∧
    decodeFrame (frame3.take 10) = .error .truncated := by exact ⟨rfl, rfl⟩

/-- The header words of 95_test_vectors.md, with reserved flag bits (V-DEC-16), and what is no encoding. -/
theorem test_word_reserved : decodeTableWord 64 0xFF018000000A0003 =
    some (.frameCmd 0x01#8 0x40#7 0x000A#16 0x0003#15 []) := by rfl
theorem test_word_none : decodeTableWord 64 0xFE010000000A0003 = none ∧ decodeTableWord 32 0xFF010000 = none := by
  decide
theorem test_word_bytes : decodeTableWord 8 0xFF = some .sync ∧ decodeTableWord 8 0xFE = some (.drop 0xFE#8) := by
  decide

/-- The arms, in states of program P2 and V-FSM-20, V-FSM-13. -/
theorem test_select_drop : selectArm Config.hw State.reset 0x7E#8 = .drop 0x7E#8 := by decide
theorem test_select_sync : selectArm Config.hw State.reset 0xFF#8 = .sync := by decide
theorem test_select_stage : selectArm Config.hw (holding [0xFF#8] none 0x00#8) 0xFF#8 = .stage 0xFF#8 ∧
    selectArm Config.hw (holding (frame3.take 4) (some 11#9) 0x01#8) 0xFF#8 = .stage 0xFF#8 := by decide
theorem test_select_stageFlags :
    selectArm Config.hw (holding (frame3.take 2) none 0x00#8) 0x01#8 = .stageFlags 0x01#8 := by decide
theorem test_select_stageLen :
    selectArm Config.hw (holding (frame3.take 3) none 0x01#8) 0x02#8 = .stageLen 0x02#8 := by decide
theorem test_select_abort : selectArm cfg16 (holding (frame1.take 3) none 0x00#8) 0x09#8 = .abort 0x09#8 ∧
    selectArm cfg16 (holding (frame1.take 3) none 0x00#8) 0x08#8 = .stageLen 0x08#8 := by decide
theorem test_select_completeEmit : selectArm Config.hw almost3 0xC4#8 = .completeEmit 0xC4#8 := by decide
theorem test_select_completeFail : selectArm Config.hw almost3 0xC5#8 = .completeFail 0xC5#8 := by decide
theorem test_select_guard : selectArm Config.hw { State.reset with cursor := 270 } 0xFF#8 = .guard 0xFF#8 := by
  decide

/-- The operations without opcode bits, by their interface. -/
theorem test_fetch_call : fetchInstr State.reset (.call .srst) = .srst ∧
    fetchInstr State.reset (.call (.step 0x00#8)) = .step 0x00#8 ∧
    fetchInstr State.reset (.call (.feed frame1)) = .feed frame1 ∧
    fetchInstr State.reset (.call (.decode frame1)) = .decode frame1 ∧
    fetchInstr State.reset (.call (.encode 1#16 2#16 [] 0x00#8)) = .encode 1#16 2#16 [] 0x00#8 := by decide
theorem test_fetch_helpers : fetchInstr State.reset (.call (.xor8 frame1)) = .xor8 frame1 ∧
    fetchInstr State.reset (.call (.be16Get 0x12#8 0x34#8)) = .be16Get 0x12#8 0x34#8 ∧
    fetchInstr State.reset (.call (.be16Put 1#16)) = .be16Put 1#16 ∧
    fetchInstr State.reset (.call (.frameLen 0x01#8 0x02#8)) = .frameLen 0x01#8 0x02#8 ∧
    fetchInstr State.reset (.call (.ackOf 1#16)) = .ackOf 1#16 ∧
    fetchInstr State.reset (.call (.cmdOf 1#16)) = .cmdOf 1#16 ∧
    fetchInstr State.reset (.call (.statusOf true [])) = .statusOf true [] ∧
    fetchInstr State.reset (.call (.mkPacket 1#16 2#16 0x03#8 [])) = .mkPacket 1#16 2#16 0x03#8 [] := by decide

end Decoding

section Meanings

/-- The header word of S1 runs as the first instruction after reset. -/
theorem test_withFetchWord_frame : step (State.reset.withFetchWord 64 0xFF010000000A0003) =
    .next { State.reset with result := .decoded (some packet1) } := by rfl
/-- The sync byte runs as the first instruction after reset. -/
theorem test_withFetchWord_sync : step (State.reset.withFetchWord 8 0xFF) =
    .next { State.reset with cursor := 1, buf := [(0, 0xFF#8)], result := .emitted none } := by rfl

/-- V-DEC-16. -/
theorem test_frameCmd : resultOf (.frameCmd 0x01#8 0x40#7 0x000A#16 3#15 []) State.reset =
    some (.decoded (some { packet1 with flags := 0x80#8 })) := by decide
/-- S3, and V-DEC-5. -/
theorem test_frameCmdCk :
    resultOf (.frameCmdCk 0x01#8 0#7 0x000A#16 3#15 [0x10#8, 0x20#8] 0xC4#8) State.reset =
      some (.decoded (some packet3)) ∧
    resultOf (.frameCmdCk 0x01#8 0#7 0x000A#16 3#15 [0x10#8, 0x20#8] 0xC5#8) State.reset =
      some (.decoded none) := by decide
/-- S2. -/
theorem test_frameAck : resultOf (.frameAck 0x01#8 0#7 0x000A#16 3#15 [0x01#8]) State.reset =
    some (.decoded (some packet2)) := by decide
/-- V-DEC-6. -/
theorem test_frameAckCk : resultOf (.frameAckCk 0x01#8 0#7 0x1234#16 0x2BCD#15 [0xFF#8, 0x02#8] 0x40#8) State.reset =
    some (.decoded (some
      { vendorId := 0x1234#16, rawCommandId := 0xABCD#16, command := 0x2BCD#15, ack := true, flags := 0x01#8,
        payload := [0xFF#8, 0x02#8], status := some 0xFF#8 })) := by decide

/-- Program P2, row by row where the arms differ. -/
theorem test_drop : exec (.drop 0xFE#8) State.reset = .next { State.reset with result := .emitted none } := by rfl
theorem test_sync : regsAfter .sync State.reset = some (1, none, 0x00#8) ∧
    cellAfter .sync State.reset 0 = some 0xFF#8 := by decide
theorem test_stage : regsAfter (.stage 0x10#8) (holding (frame3.take 8) (some 11#9) 0x01#8) =
    some (9, some 11#9, 0x01#8) ∧
    cellAfter (.stage 0x10#8) (holding (frame3.take 8) (some 11#9) 0x01#8) 8 = some 0x10#8 := by decide
theorem test_stage_completes : regsAfter (.stage 0xC4#8) almost3 = some (0, none, 0x01#8) ∧
    resultOf (.stage 0xC4#8) almost3 = some (.emitted (some packet3)) := by decide
theorem test_stageFlags : regsAfter (.stageFlags 0xFE#8) (holding (frame3.take 2) none 0x00#8) =
    some (3, none, 0xFE#8) ∧
    cellAfter (.stageFlags 0xFE#8) (holding (frame3.take 2) none 0x00#8) 2 = some 0xFE#8 := by decide
/-- V-FSM-22: length byte 255 with a checksum declares 264 bytes. -/
theorem test_stageLen : regsAfter (.stageLen 0xFF#8) (holding [0xFF#8, 0xFF#8, 0xFF#8] none 0xFF#8) =
    some (4, some 264#9, 0xFF#8) := by decide
/-- V-FSM-13, V-FSM-14: the aborting byte is stored and consumed, FLAGS stays. -/
theorem test_abort : (stepByte cfg16 0x09#8 (holding (frame1.take 3) none 0x00#8)).1.buf.read 3 = 0x09#8 ∧
    (stepByte cfg16 0xFF#8 (holding (frame3.take 3) none 0x01#8)).1.cursor = 0 ∧
    (stepByte cfg16 0xFF#8 (holding (frame3.take 3) none 0x01#8)).1.flags = 0x01#8 := by decide
theorem test_abort_arm : regsAfter (.abort 0xFF#8) (holding (frame3.take 3) none 0x01#8) =
    some (0, none, 0x01#8) ∧
    cellAfter (.abort 0xFF#8) (holding (frame3.take 3) none 0x01#8) 3 = some 0xFF#8 := by decide
theorem test_completeEmit : resultOf (.completeEmit 0x03#8) almost1 = some (.emitted (some packet1)) ∧
    regsAfter (.completeEmit 0x03#8) almost1 = some (0, none, 0x00#8) := by decide
theorem test_completeFail : resultOf (.completeFail 0xC5#8) almost3 = some (.emitted none) ∧
    cellAfter (.completeFail 0xC5#8) almost3 10 = some 0xC5#8 := by decide
/-- V-FSM-20. -/
theorem test_guard : regsAfter (.guard 0xFF#8) { State.reset with cursor := 270 } = some (0, none, 0x00#8) ∧
    exec (.step 0xFF#8) { State.reset with cursor := 270 } =
      exec (.guard 0xFF#8) { State.reset with cursor := 270 } := by exact ⟨by decide, rfl⟩
/-- V-FSM-21: the ninth byte completes the frame. -/
theorem test_step : resultOf (.step 0xF6#8)
    (holding [0xFF#8, 0x01#8, 0x01#8, 0x00#8, 0x00#8, 0x0A#8, 0x00#8, 0x03#8] (some 9#9) 0x01#8) =
      some (.emitted (some { packet1 with flags := 0x01#8 })) := by decide
/-- V-FSM-15: "exceeds" is strict, a frame of exactly CAP bytes fits. -/
theorem test_step_exact_capacity :
    (stepByte cfg16 0x08#8 (holding (frame1.take 3) none 0x00#8)).1.expected = some 16#9 := by decide
/-- V-FSM-4. -/
theorem test_feed : resultOf (.feed (frame1 ++ frame2 ++ frame3)) State.reset =
    some (.packets [packet1, packet2, packet3]) := by decide
/-- V-FSM-18: a corrupted length byte swallows the start of the next frame. -/
theorem test_feed_misframed :
    resultOf (.feed ([0xFF#8, 0x01#8, 0x00#8, 0x02#8, 0x00#8, 0x0A#8, 0x00#8, 0x03#8] ++ frame1 ++ frame1))
      State.reset = some (.packets [{ packet1 with payload := [0xFF#8, 0x01#8] }, packet1]) := by decide
/-- R102's example. -/
theorem test_srst : regsAfter .srst (holding (frame3.take 5) (some 11#9) 0x01#8) = some (0, none, 0x01#8) ∧
    resultOf .srst (holding (frame3.take 5) (some 11#9) 0x01#8) = some .nothing := by decide
/-- V-DEC-15: over-long with a checksum flag. -/
theorem test_decode_overlong : resultOf (.decode [0xFF#8, 0x01#8, 0x01#8, 0x00#8, 0x00#8, 0x0A#8, 0x00#8, 0x03#8,
    0x55#8, 0xA3#8]) State.reset = some (.decoded (some { packet1 with flags := 0x01#8 })) := by decide
/-- V-DEC-9: the sync byte is not tested. -/
theorem test_decode_nosync : resultOf (.decode (0x00#8 :: frame1.tail)) State.reset =
    some (.decoded (some packet1)) := by decide
/-- V-ENC-12. -/
theorem test_encode : resultOf (.encode 0x000A#16 0x8003#16 [0x00#8, 0x05#8] 0x01#8) State.reset =
    some (.encoded (.ok [0xFF#8, 0x01#8, 0x01#8, 0x02#8, 0x00#8, 0x0A#8, 0x80#8, 0x03#8, 0x00#8, 0x05#8, 0x71#8])) := by
  decide
/-- V-ENC-9: the true length is tested. -/
theorem test_encode_tooLarge : resultOf (.encode 0x000A#16 0x0003#16 (List.replicate 1000 0x00#8) 0x01#8)
    State.reset = some (.encoded (.error .payloadTooLarge)) := by
  have h : encodeFrame 0x000A#16 0x0003#16 (List.replicate 1000 0x00#8) 0x01#8 = .error .payloadTooLarge :=
    if_pos (by rw [List.length_replicate]; decide)
  exact congrArg (fun r => some (Result.encoded r)) h

/-- V-HLP-6, V-HLP-4. -/
theorem test_xor8 : resultOf (.xor8 (frame3.take 10)) State.reset = some (.byte 0xC4#8) ∧
    resultOf (.xor8 [0x01#8, 0x02#8, 0x04#8, 0x08#8]) State.reset = some (.byte 0x0F#8) := by decide
/-- V-HLP-13, V-HLP-14. -/
theorem test_be16Get : resultOf (.be16Get 0x12#8 0x34#8) State.reset = some (.half 0x1234#16) ∧
    resultOf (.be16Get 0x34#8 0x12#8) State.reset = some (.half 0x3412#16) := by decide
/-- V-HLP-19. -/
theorem test_be16Put : resultOf (.be16Put 0xABCD#16) State.reset = some (.bytes [0xAB#8, 0xCD#8]) := by decide
/-- V-HLP-26, V-HLP-27, V-HLP-29. -/
theorem test_frameLen : resultOf (.frameLen 0x00#8 0xFF#8) State.reset = some (.length 263#9) ∧
    resultOf (.frameLen 0x01#8 0xFF#8) State.reset = some (.length 264#9) ∧
    resultOf (.frameLen 0x03#8 0x05#8) State.reset = some (.length 14#9) := by decide
/-- V-HLP-33, V-HLP-36. -/
theorem test_ackOf : resultOf (.ackOf 0x7FFF#16) State.reset = some (.flag false) ∧
    resultOf (.ackOf 0xABCD#16) State.reset = some (.flag true) := by decide
theorem test_cmdOf : resultOf (.cmdOf 0x7FFF#16) State.reset = some (.command 0x7FFF#15) ∧
    resultOf (.cmdOf 0xABCD#16) State.reset = some (.command 0x2BCD#15) := by decide
/-- V-HLP-38, V-HLP-39, V-HLP-41. -/
theorem test_statusOf : resultOf (.statusOf true []) State.reset = some (.status none) ∧
    resultOf (.statusOf false [0x01#8]) State.reset = some (.status none) ∧
    resultOf (.statusOf true [0x00#8, 0x05#8]) State.reset = some (.status (some 0x00#8)) := by decide
/-- V-HLP-44. -/
theorem test_mkPacket : resultOf (.mkPacket 0xFFFF#16 0x0000#16 0xFE#8 []) State.reset =
    some (.packet
      { vendorId := 0xFFFF#16, rawCommandId := 0x0000#16, command := 0#15, ack := false, flags := 0xFE#8,
        payload := [], status := none }) := by decide

/-- The canonical form: writing what an unlisted cell reads as removes the entry. -/
theorem test_memory : Memory.write [(1, 0x05#8), (3, 0x07#8)] 2 0x09#8 = [(1, 0x05#8), (2, 0x09#8), (3, 0x07#8)] ∧
    Memory.write [(1, 0x05#8), (3, 0x07#8)] 1 0x00#8 = [(3, 0x07#8)] ∧
    Memory.wf [(1, 0x05#8), (3, 0x07#8)] = true ∧ Memory.wf [(3, 0x05#8), (1, 0x07#8)] = false ∧
    Memory.wf [(1, 0x00#8)] = false := by decide

end Meanings

section Witnesses

/-- The operands of F3. -/
def command3 : Command := { vendor := 0x000A#16, command := 0x0003#16, payload := [0x10#8, 0x20#8], flags := 0x01#8 }
/-- The operands of F1. -/
def command1 : Command := { vendor := 0x000A#16, command := 0x0003#16, payload := [], flags := 0x00#8 }

/-- States that meet the invariant: in every place of a frame, and the last cell a frame can reach. -/
theorem test_inv_sync : Inv Config.hw (holding [0xFF#8] none 0x00#8) := by constructor <;> decide
theorem test_inv_flags : Inv Config.hw (holding (frame3.take 2) none 0x00#8) := by constructor <;> decide
theorem test_inv_len : Inv Config.hw (holding (frame3.take 3) none 0x01#8) := by constructor <;> decide
theorem test_inv_body : Inv Config.hw (holding (frame3.take 4) (some 11#9) 0x01#8) := by constructor <;> decide
theorem test_inv_almost1 : Inv Config.hw almost1 := by constructor <;> decide
theorem test_inv_almost3 : Inv Config.hw almost3 := by constructor <;> decide
theorem test_inv_longest : Inv Config.hw almostLongest := by constructor <;> decide
theorem test_inv_reset : Inv Config.hw State.reset := by constructor <;> decide
theorem test_idle_reset : Idle State.reset := ⟨rfl, rfl⟩
theorem test_idle_stale : Idle { almost3 with cursor := 0, expected := none } := ⟨rfl, rfl⟩

theorem test_witness_FrameEncodingRoundTrip :
    (Instr.frameCmdCk 0x01#8 0#7 0x000A#16 3#15 [0x10#8, 0x20#8] 0xC4#8).isFrame = true ∧
    (Instr.frameCmdCk 0x01#8 0#7 0x000A#16 3#15 [0x10#8, 0x20#8] 0xC4#8).wf = true ∧
    encode (.frameCmdCk 0x01#8 0#7 0x000A#16 3#15 [0x10#8, 0x20#8] 0xC4#8) = some frame3 := by decide
theorem test_witness_FrameDecodingIsExact :
    decodeFrame frame2 = .ok (.frameAck 0x01#8 0#7 0x000A#16 0x0003#15 [0x01#8], []) := by rfl
theorem test_witness_HeaderPatternSelectsKind :
    0xFF010000000A0003#64 &&& 0xFF00010000008000#64 = 0xFF00000000000000#64 ∧
    0xFF010102000A0003#64 &&& 0xFF00010000008000#64 = 0xFF00010000000000#64 ∧
    0xFF010001000A8003#64 &&& 0xFF00010000008000#64 = 0xFF00000000008000#64 ∧
    0xFF7FFF0012348ABC#64 &&& 0xFF00010000008000#64 = 0xFF00010000008000#64 ∧
    0xFE010000000A0003#64 &&& 0xFF00000000000000#64 ≠ 0xFF00000000000000#64 := by decide
theorem test_witness_StepRunsFetchedInstruction :
    State.reset.inbox = [] ∧ ({ State.reset with inbox := [.byte 0xFF#8] } : State).inbox = [.byte 0xFF#8] ∧
    (∀ i, decodeFrame (frame1 ++ [0x55#8]) ≠ .ok (i, [])) ∧
    decodeFrame frame1 = .ok (.frameCmd 0x01#8 0#7 0x000A#16 0x0003#15 [], []) :=
  ⟨rfl, rfl, fun _ h => (nomatch test_decode_frameCmd.symm.trans h), rfl⟩
theorem test_witness_EveryOperationCompletes :
    exec (.encode 1#16 2#16 (List.replicate 255 0x00#8) 0x00#8) State.reset =
      .next { State.reset with result := .encoded (.error .payloadTooLarge) } := by
  have h : encodeFrame 1#16 2#16 (List.replicate 255 0x00#8) 0x00#8 = .error .payloadTooLarge :=
    if_pos (by rw [List.length_replicate]; decide)
  exact congrArg (fun r => Host.Outcome.next { State.reset with result := .encoded r }) h
theorem test_witness_InstancesShareNothing : (0 : Nat) ≠ 1 ∧ 0 < ([State.reset, State.reset] : Instances).length := by
  decide
theorem test_witness_Xor8IsRunningExclusiveOr : [0x01#8, 0x02#8].Perm [0x02#8, 0x01#8] := by decide
theorem test_witness_FrameLenCountsWithoutWrap : 0xFE#8 &&& 0x01#8 = 0x00#8 &&& 0x01#8 := by decide
theorem test_witness_PureOperationsFrame :
    exec (.frameCmd 0x01#8 0#7 0x000A#16 3#15 []) almost3 = .next { almost3 with result := .decoded (some packet1) } ∧
    exec (.decode []) almost3 = .next { almost3 with result := .decoded none } ∧
    (∃ r, exec (.encode 1#16 2#16 [] 0x00#8) almost3 = .next { almost3 with result := .encoded (.ok r) }) ∧
    exec (.xor8 []) almost3 = .next { almost3 with result := .byte 0x00#8 } ∧
    exec (.be16Get 0x00#8 0x0A#8) almost3 = .next { almost3 with result := .half 0x000A#16 } ∧
    exec (.be16Put 0x000A#16) almost3 = .next { almost3 with result := .bytes [0x00#8, 0x0A#8] } ∧
    exec (.frameLen 0x00#8 0x00#8) almost3 = .next { almost3 with result := .length 8#9 } ∧
    exec (.ackOf 0x8000#16) almost3 = .next { almost3 with result := .flag true } ∧
    exec (.cmdOf 0xFFFF#16) almost3 = .next { almost3 with result := .command 0x7FFF#15 } ∧
    exec (.statusOf true []) almost3 = .next { almost3 with result := .status none } ∧
    exec (.mkPacket 0x000A#16 3#16 0x00#8 []) almost3 = .next { almost3 with result := .packet packet1 } :=
  ⟨rfl, rfl, ⟨_, rfl⟩, rfl, rfl, rfl, rfl, rfl, rfl, rfl, rfl⟩
theorem test_witness_EveryPacketIsConsistent :
    exec (.decode frame2) State.reset = .next { State.reset with result := .decoded (some packet2) } ∧
    packet2 ∈ packetsOf (.decoded (some packet2)) := ⟨rfl, by decide⟩
theorem test_witness_DecodeTooShort : (frame1.take 7).length < 8 ∧ ([] : List Byte).length < 8 ∧
    (0xFE#8).getLsbD 0 = false := by decide
theorem test_witness_DecodeLengthMismatch :
    ([] : List Byte).length + 8 < (0x01#8).toNat + 8 + (0x00#8).toNat % 2 ∧
    (0x00#8).toNat + 8 + (0x00#8).toNat % 2 ≤ ([] : List Byte).length + 8 ∧
    (0x00#8).toNat + 8 + (0x01#8).toNat % 2 ≤ [0xF6#8].length + 8 ∧ (0x01#8).getLsbD 0 = true ∧
    xor8 [0xFF#8, 0x01#8, 0x01#8, 0x00#8, 0x00#8, 0x0A#8, 0x00#8, 0x03#8, 0xF6#8] = 0x00#8 := by decide
theorem test_witness_DecodeChecksum :
    (0x02#8).toNat + 8 + (0x01#8).toNat % 2 ≤ [0x10#8, 0x20#8].length + 9 ∧ (0x01#8).getLsbD 0 = true ∧
    xor8 (frame3.take 10) ≠ 0xC5#8 ∧ xor8 (frame3.take 10) = 0xC4#8 ∧
    (0x01#8).toNat + 8 + (0x00#8).toNat % 2 ≤ ([] : List Byte).length + 9 ∧ (0x00#8).getLsbD 0 = false := by decide
theorem test_witness_DecodeExtractsFields : exec (.decode frame3) State.reset =
    .next { State.reset with result := .decoded (some packet3) } := by rfl
theorem test_witness_DecodeIgnoresSyncVersionAndRange : 0xFF#8 ^^^ 0x01#8 = 0x00#8 ^^^ 0xFE#8 ∧
    (0x80#8).getLsbD 0 = false ∧ 255 ≤ (List.replicate 255 0x00#8).length :=
  ⟨by decide, by decide, by rw [List.length_replicate]⟩
theorem test_witness_FrameKindIsDecodeOfItsBytes :
    (Instr.frameAck 0x01#8 0#7 0x000A#16 3#15 [0x01#8]).isFrame = true ∧
    encode (.frameAck 0x01#8 0#7 0x000A#16 3#15 [0x01#8]) = some frame2 := by decide
theorem test_witness_FramesYieldTheirPacket : (List.replicate 255 0x00#8).length ≤ 255 ∧
    xor8 (wireFrame 0x01#8 (0#7 ++ 1#1) 0x000A#16 ((3#15).setWidth 16) [0x10#8, 0x20#8] []) = 0xC4#8 ∧
    xor8 (wireFrame 0x01#8 (0#7 ++ 1#1) 0x000A#16 ((3#15).setWidth 16) [0x10#8, 0x20#8] []) ≠ 0xC5#8 :=
  ⟨by rw [List.length_replicate], by decide, by decide⟩
theorem test_witness_EncodeLimits : 254 < (List.replicate 255 0x00#8).length ∧
    (List.replicate 254 0x00#8).length ≤ 254 ∧ (0xFE#8).getLsbD 0 = false ∧ (0xFF#8).getLsbD 0 = true := by
  rw [List.length_replicate, List.length_replicate]; decide
theorem test_witness_EncodedFrame :
    encodeFrame 0x000A#16 0x0003#16 [0x10#8, 0x20#8] 0x01#8 = .ok frame3 ∧ (0x01#8).getLsbD 0 = true := by decide
theorem test_witness_SingleBitCorruption : 2 < frame3.length ∧ 10 < frame3.length ∧ 7 < 8 ∧
    exec (.decode (flipBit frame3 2 0)) State.reset =
      .next { State.reset with result := .decoded (some { packet3 with flags := 0x00#8 }) } ∧
    exec (.decode (flipBit frame3 10 7)) State.reset = .next { State.reset with result := .decoded none } :=
  ⟨by decide, by decide, by decide, rfl, rfl⟩
theorem test_witness_DropDiscardsStrayBytes : State.reset.cursor = 0 ∧ (0xFE#8 : Byte) ≠ 0xFF#8 ∧
    ∀ b ∈ [0x00#8, 0x7E#8, 0xFE#8], b ≠ 0xFF#8 := by decide
/-- The clauses of the STAGE statement: version byte, a body byte, the completing byte, the last cell. -/
theorem test_witness_StageStoresAtCursor :
    (holding [0xFF#8] none 0x00#8).cursor = 1 ∧
    (∀ e, (holding [0xFF#8] none 0x00#8).expected = some e → e.toNat ≠ (holding [0xFF#8] none 0x00#8).cursor + 1) ∧
    4 ≤ (holding (frame3.take 4) (some 11#9) 0x01#8).cursor ∧
    (∀ e, (holding (frame3.take 4) (some 11#9) 0x01#8).expected = some e → e.toNat ≠ 5) ∧
    almost1.expected = some 8#9 ∧ (8#9).toNat = almost1.cursor + 1 ∧
    almostLongest.expected = some 264#9 ∧ (264#9).toNat = almostLongest.cursor + 1 :=
  ⟨rfl, fun e h => (nomatch h), by decide, fun e h => by cases h; decide, rfl, rfl, rfl, rfl⟩
theorem test_witness_StageFlagsRemembersFlags : (holding (frame3.take 2) none 0x00#8).cursor = 2 ∧
    (holding (frame3.take 2) none 0x00#8).expected = none := by decide
theorem test_witness_StageLenFixesLength : (holding (frame3.take 3) none 0x01#8).cursor = 3 := by decide
theorem test_witness_AbortAbandonsFrame : (holding (frame1.take 3) none 0x00#8).cursor = 3 ∧ 3 < cfg16.cap ∧
    cfg16.cap < (0x09#8).toNat + 8 + (holding (frame1.take 3) none 0x00#8).flags.toNat % 2 := by decide
theorem test_witness_CompleteEmitsPacket : (∃ e, almost3.expected = some e ∧ e.toNat = almost3.cursor + 1) ∧
    decodePacket Config.hw (staged almost3 ++ [0xC4#8]) = some packet3 := ⟨⟨11#9, rfl, rfl⟩, by decide⟩
theorem test_witness_CompleteFailsSilently : (∃ e, almost3.expected = some e ∧ e.toNat = almost3.cursor + 1) ∧
    decodePacket Config.hw (staged almost3 ++ [0xC5#8]) = none := ⟨⟨11#9, rfl, rfl⟩, by decide⟩
theorem test_witness_GuardReturnsToIdle : 270 ≤ ({ State.reset with cursor := 270 } : State).cursor := by decide
/-- Every instruction the frame statement names gives a next state. -/
theorem test_witness_ArmFrames : (exec (.drop 0x00#8) almost3 = .next { almost3 with result := .emitted none }) ∧
    (∃ t, exec (.guard 0x00#8) almost3 = .next t) ∧ (∃ t, exec .srst almost3 = .next t) ∧
    (∃ t, exec .sync almost3 = .next t) ∧ (∃ t, exec (.stage 0x00#8) almost3 = .next t) ∧
    (∃ t, exec (.stageFlags 0x00#8) almost3 = .next t) ∧ (∃ t, exec (.stageLen 0x00#8) almost3 = .next t) ∧
    (∃ t, exec (.abort 0x00#8) almost3 = .next t) ∧ (∃ t, exec (.completeEmit 0xC4#8) almost3 = .next t) ∧
    (∃ t, exec (.completeFail 0x00#8) almost3 = .next t) ∧ (∃ t, exec (.step 0x00#8) almost3 = .next t) ∧
    almost3.cursor ≠ offFlags :=
  ⟨rfl, ⟨_, rfl⟩, ⟨_, rfl⟩, ⟨_, rfl⟩, ⟨_, rfl⟩, ⟨_, rfl⟩, ⟨_, rfl⟩, ⟨_, rfl⟩, ⟨_, rfl⟩, ⟨_, rfl⟩, ⟨_, rfl⟩, by decide⟩
/-- The branches of the transition table on states that meet the invariant. -/
theorem test_witness_StepFollowsTransitionTable : State.reset.cursor = 0 ∧
    (holding [0xFF#8] none 0x00#8).cursor = 1 ∧ (holding (frame3.take 2) none 0x00#8).cursor = 2 ∧
    (holding (frame3.take 3) none 0x01#8).cursor = 3 ∧ almost3.expected = some (BitVec.ofNat 9 (almost3.cursor + 1)) ∧
    (holding (frame3.take 4) (some 11#9) 0x01#8).expected ≠ some (BitVec.ofNat 9 5) := by decide
theorem test_witness_FeedFrame : exec (.feed [0xC4#8]) almost3 = .next
    { almost3 with cursor := 0, expected := none, buf := almost3.buf.write 10 0xC4#8, result := .packets [packet3] } ∧
    almost3.cursor + [0xC4#8].length ≤ 264 := by exact ⟨rfl, by decide⟩
theorem test_witness_SyncTestedOnlyWhileIdle : 1 ≤ (holding [0xFF#8] none 0x00#8).cursor ∧
    (holding [0xFF#8] none 0x00#8).cursor < 270 ∧ (holding [0xFF#8] none 0x00#8).buf.wf = true ∧
    ({ State.reset with cursor := 269 } : State).cursor < 270 ∧ State.reset.buf.wf = true := by decide
theorem test_witness_EncodedFrameGivesOnePacket : Config.hw.Conforming ∧
    ({ cap := 300, len255Accept := false } : Config).Conforming ∧ command3.payload.length ≤ 254 ∧
    ({ almost3 with cursor := 0, expected := none } : State).buf.wf = true := by decide
theorem test_witness_ConformingStreamGivesItsPackets : ∀ x ∈ [([0x55#8], command3), ([], command1)],
    (∀ b ∈ x.1, b ≠ 0xFF#8) ∧ x.2.payload.length ≤ 254 := by decide
theorem test_witness_BadChecksumCostsOneFrame : command3.flags.getLsbD 0 = true ∧
    command3.payload.length ≤ 254 ∧ command1.payload.length ≤ 254 ∧ command3.frame.getLast? ≠ some 0xC5#8 := by decide
theorem test_witness_PacketsNeedEightBytes :
    resultOf (.step 0x03#8) almost1 = some (.emitted (some packet1)) ∧ almost1.cursor = 7 ∧
    resultOf (.feed frame1) State.reset = some (.packets [packet1]) := by decide
theorem test_witness_OnlyChecksumFailsInStep : (∃ e, almost3.expected = some e ∧ e.toNat = almost3.cursor + 1) ∧
    almost3.flags.getLsbD 0 = true ∧ xor8 (staged almost3 ++ [0xC5#8]) ≠ 0x00#8 ∧
    xor8 (staged almost3 ++ [0xC4#8]) = 0x00#8 := ⟨⟨11#9, rfl, rfl⟩, by decide⟩
theorem test_witness_StepKeepsInvariant : Inv Config.hw { almost3 with inbox := [.byte 0xC4#8] } ∧
    ∃ t, step { almost3 with inbox := [.byte 0xC4#8] } = .next t ∧ t.result = .emitted (some packet3) :=
  ⟨by constructor <;> decide, _, rfl, by decide⟩
theorem test_witness_ReachableStatesMeetInvariant : Reachable { State.reset with
    cursor := 1, buf := [(0, 0xFF#8)], result := .emitted none } :=
  .step { State.reset with inbox := [.byte 0xFF#8] } _ (.request (.byte 0xFF#8) _ .reset) rfl
theorem test_witness_MemoryStaysCanonical : almost3.buf.wf = true ∧ ∃ t, exec (.step 0x00#8) almost3 = .next t :=
  ⟨by decide, _, rfl⟩
theorem test_witness_AbortAndGuardNeverSelected : 264 ≤ ({ cap := 264, len255Accept := true } : Config).cap ∧
    Inv { cap := 264, len255Accept := true } almostLongest := ⟨by decide, by constructor <;> decide⟩
/-- Two states that agree and differ in every dead part: stale FLAGS and stale cells. -/
theorem test_witness_DeadStateIsUnobservable : State.reset.buf.wf = true ∧
    (toIdle { almost3 with inbox := [.byte 0xFF#8] }).buf.wf = true ∧
    Agree { State.reset with inbox := [.byte 0xFF#8] } (toIdle { almost3 with inbox := [.byte 0xFF#8] }) ∧
    State.reset.flags ≠ almost3.flags ∧ State.reset.buf ≠ almost3.buf :=
  ⟨by decide, by decide, ⟨rfl, rfl, fun _ h => absurd h (by decide +revert), fun h => absurd h (by decide)⟩,
    by decide, by decide⟩
theorem test_witness_CapacityIsUnobservable : 264 ≤ ({ cap := 264, len255Accept := true } : Config).cap ∧
    264 ≤ Config.hw.cap ∧ ({ cap := 264, len255Accept := true } : Config).len255Accept = Config.hw.len255Accept ∧
    Inv { cap := 264, len255Accept := true } State.reset := ⟨by decide, by decide, rfl, by constructor <;> decide⟩

end Witnesses

end Sys2Proof.Tests
end

section
/-! PROOFS. The packet helpers (spec/40_packet_helpers.md R72 to R78): each helper's run, its value as a number,
and the statements settled from them. -/

namespace Sys2Proof.Proofs.PacketHelpers

open Sys2Proof.Machine Sys2Proof.Safety

section Runs
variable (s : State)

/-! What running a helper does: the value is handed to the host and nothing else changes. -/

@[simp] theorem exec_be16Get (hi lo : Byte) :
    exec (.be16Get hi lo) s = .next { s with result := .half (be16Get hi lo) } := rfl

@[simp] theorem exec_be16Put (v : Half) :
    exec (.be16Put v) s = .next { s with result := .bytes (be16Put v) } := rfl

@[simp] theorem exec_frameLen (f n : Byte) :
    exec (.frameLen f n) s = .next { s with result := .length (frameLen f n) } := rfl

@[simp] theorem exec_ackOf (raw : Half) :
    exec (.ackOf raw) s = .next { s with result := .flag (ackOf raw) } := rfl

@[simp] theorem exec_cmdOf (raw : Half) :
    exec (.cmdOf raw) s = .next { s with result := .command (cmdOf raw) } := rfl

@[simp] theorem exec_statusOf (ack : Bool) (p : List Byte) :
    exec (.statusOf ack p) s = .next { s with result := .status (statusOf ack p) } := rfl

@[simp] theorem exec_mkPacket (v raw : Half) (f : Byte) (p : List Byte) :
    exec (.mkPacket v raw f p) s = .next { s with result := .packet (mkPacket v raw f p) } := rfl

end Runs

section BigEndian

/-- The two bytes occupy disjoint bits, so their `or` is their sum. -/
theorem be16Get_toNat (hi lo : Byte) : (be16Get hi lo).toNat = 256 * hi.toNat + lo.toNat := by
  have hhi : hi.toNat < 2 ^ 8 := hi.isLt
  have hlo : lo.toNat < 2 ^ 8 := lo.isLt
  have hshift : hi.toNat <<< 8 = 256 * hi.toNat := by rw [Nat.shiftLeft_eq, Nat.mul_comm]
  calc (be16Get hi lo).toNat
      = hi.toNat <<< 8 ||| lo.toNat := by
        simp (disch := omega) only [be16Get, BitVec.toNat_or, BitVec.toNat_shiftLeft, BitVec.toNat_setWidth,
          Nat.mod_eq_of_lt]
    _ = hi.toNat <<< 8 + lo.toNat := (Nat.shiftLeft_add_eq_or_of_lt hlo hi.toNat).symm
    _ = 256 * hi.toNat + lo.toNat := by rw [hshift]

theorem be16Get_eq_ofNat (hi lo : Byte) :
    be16Get hi lo = BitVec.ofNat 16 (256 * hi.toNat + lo.toNat) := by
  rw [← be16Get_toNat, BitVec.ofNat_toNat, BitVec.setWidth_eq]

theorem be16Put_eq_ofNat (v : Half) :
    be16Put v = [BitVec.ofNat 8 (v.toNat / 256), BitVec.ofNat 8 (v.toNat % 256)] := by
  have high : (v >>> 8).setWidth 8 = BitVec.ofNat 8 (v.toNat / 256) := by
    apply BitVec.eq_of_toNat_eq
    simp [Nat.shiftRight_eq_div_pow]
  have low : v.setWidth 8 = BitVec.ofNat 8 (v.toNat % 256) := by
    apply BitVec.eq_of_toNat_eq
    simp
  rw [be16Put, high, low]

end BigEndian

section FrameLength

/-- The checksum-present bit is the parity of the flags byte. -/
theorem ckPresent_toNat (f : Byte) : (if ckPresent f then 1 else 0) = f.toNat % 2 := by
  have hck : ckPresent f = decide (f.toNat % 2 = 1) := Nat.testBit_zero f.toNat
  rw [hck]
  rcases Nat.mod_two_eq_zero_or_one f.toNat with h | h <;> simp [h]

theorem frameLen_toNat_mod (f n : Byte) : (frameLen f n).toNat = n.toNat + 8 + f.toNat % 2 := by
  rw [frameLen_toNat, ckPresent_toNat]

theorem frameLen_eq_ofNat (f n : Byte) : frameLen f n = BitVec.ofNat 9 (n.toNat + 8 + f.toNat % 2) := by
  rw [← frameLen_toNat_mod, BitVec.ofNat_toNat, BitVec.setWidth_eq]

theorem ckPresent_and_one (f : Byte) : ckPresent (f &&& 0x01#8) = ckPresent f := by
  simp [ckPresent]

/-- The frame length reads the flags byte through its bit 0 alone. -/
theorem frameLen_congr {f f' : Byte} (n : Byte) (h : f &&& 0x01#8 = f' &&& 0x01#8) :
    frameLen f n = frameLen f' n := by
  have hck : ckPresent f = ckPresent f' := by
    rw [← ckPresent_and_one f, h, ckPresent_and_one]
  rw [frameLen, frameLen, hck]

end FrameLength

section CommandId

theorem ackOf_eq_decide (raw : Half) : ackOf raw = decide (0x8000 ≤ raw.toNat) := by
  rw [ackOf_eq_msb, ← BitVec.msb_eq_getLsbD_last raw, BitVec.msb_eq_decide]

theorem cmdOf_toNat (raw : Half) : (cmdOf raw).toNat = raw.toNat % 0x8000 := by
  rw [cmdOf_eq_setWidth, BitVec.toNat_setWidth]

theorem cmdOf_eq_ofNat (raw : Half) : cmdOf raw = BitVec.ofNat 15 (raw.toNat % 0x8000) := by
  rw [← cmdOf_toNat, BitVec.ofNat_toNat, BitVec.setWidth_eq]

/-- The raw command id's two parts (30_encoding.md R57) put together by `or`. -/
theorem rawOf_eq_or (ack : Bool) (c : BitVec 15) :
    rawOf ack c = (if ack then 0x8000#16 else 0x0000#16) ||| c.setWidth 16 := by
  rw [rawOf, BitVec.append_def]
  cases ack <;> rfl

end CommandId

/-- The packet builder meets the invariant of R70, whatever it is given. -/
theorem packetConsistent_mkPacket (v raw : Half) (f : Byte) (p : List Byte) :
    PacketConsistent (mkPacket v raw f p) where
  command := cmdOf_toNat raw
  ack := ackOf_eq_decide raw
  status := rfl

/-- Settles O12: the run is BE16.GET's value, which is `256 * hi + lo`. -/
theorem be16GetIsBigEndian : Obligations.Be16GetIsBigEndian := by
  refine ⟨fun hi lo s => ?_, rfl, rfl, rfl⟩
  rw [exec_be16Get, be16Get_eq_ofNat]

/-- Settles O13: the two bytes are quotient and remainder by 256, and the two helpers invert each other. -/
theorem be16PutIsBigEndian : Obligations.Be16PutIsBigEndian := by
  refine ⟨fun v s => ?_, fun v => ⟨_, _, rfl, be16Get_put v⟩, be16Put_get, rfl⟩
  rw [exec_be16Put, be16Put_eq_ofNat]

/-- Settles O14: the 9-bit sum is the sum of the numbers, and flags bits 7 to 1 do not enter it. -/
theorem frameLenCountsWithoutWrap : Obligations.FrameLenCountsWithoutWrap := by
  refine ⟨fun f n s => ?_, frameLen_toNat_mod, frameLen_bounds, fun f f' n => frameLen_congr n,
    fun n => frameLen_congr n rfl, rfl, rfl, rfl⟩
  rw [exec_frameLen, frameLen_eq_ofNat]

/-- Settles O15: the flag is the id's bit 15, the command its remainder by `0x8000`, the id their `or`. -/
theorem ackCommandAndStatus : Obligations.AckCommandAndStatus := by
  refine ⟨fun raw s => ?_, fun raw s => ?_, fun raw => ?_, rfl, rfl, rfl, rfl, rfl, rfl,
    fun b p s => exec_statusOf s true (b :: p), fun s => exec_statusOf s true [],
    fun p s => exec_statusOf s false p, fun v raw f p => rfl⟩
  · rw [exec_ackOf, ackOf_eq_decide]
  · rw [exec_cmdOf, cmdOf_eq_ofNat]
  · rw [← rawOf_eq_or, rawOf_of]

/-- Settles O16: the packet is `mkPacket`'s, for any operands. -/
theorem mkPacketFillsSevenFields : Obligations.MkPacketFillsSevenFields := fun v raw f p s =>
  ⟨mkPacket v raw f p, exec_mkPacket s v raw f p, rfl, rfl, rfl, rfl, rfl, rfl, rfl,
    packetConsistent_mkPacket v raw f p⟩

end Sys2Proof.Proofs.PacketHelpers
end

section
/-! PROOFS. The byte-step decoder (spec/41_decoder_fsm.md R91 to R103): which arm a state selects, what the arms do,
FEED as a fold, a whole frame fed to an idle decoder, and the statements settled from them. -/

namespace Sys2Proof.Proofs.DecoderFsm

open Sys2Proof.Machine Sys2Proof.Safety

section Selection
variable {cfg : Config} {s : State} {b : Byte}

theorem selectArm_of_stray (h0 : s.cursor = 0) (hb : b ≠ syncByte) : selectArm cfg s b = .drop b :=
  if_pos ⟨h0, hb⟩

/-- A byte that is stored without completing a frame: the offset alone selects the arm. -/
theorem selectArm_of_incomplete (hidle : ¬ (s.cursor = 0 ∧ b ≠ syncByte)) (hc : s.cursor < cfg.cap)
    (hu : unrepresentable cfg b s = false) (hf : frameComplete (storing cfg b s) = false) :
    selectArm cfg s b =
      if s.cursor = 0 then .sync
      else if s.cursor = offFlags then .stageFlags b
      else if s.cursor = offLen then .stageLen b
      else .stage b := by
  simp [selectArm, hidle, Nat.not_le.mpr hc, hu, hf]

/-- A byte that completes a frame: DECODE of the staged bytes and this one selects the arm (R97). -/
theorem selectArm_of_complete (hidle : ¬ (s.cursor = 0 ∧ b ≠ syncByte)) (hc : s.cursor < cfg.cap)
    (hu : unrepresentable cfg b s = false) (hf : frameComplete (storing cfg b s) = true) (hwf : s.buf.wf = true) :
    selectArm cfg s b =
      if (decodePacket cfg (staged s ++ [b])).isSome then .completeEmit b else .completeFail b := by
  rw [← staged_storing b hwf hc]
  simp only [selectArm, if_neg hidle, if_neg (Nat.not_le.mpr hc), hu, hf]
  cases decodePacket cfg (staged (storing cfg b s)) <;> rfl

/-- While staging, neither of the idle decoder's two arms is selected (R103). -/
theorem selectArm_of_staging (h : s.cursor ≠ 0) :
    selectArm cfg s b ≠ .sync ∧ selectArm cfg s b ≠ .drop b := by
  have hidle : ¬ (s.cursor = 0 ∧ b ≠ syncByte) := fun hs => h hs.1
  simp only [selectArm, if_neg hidle, if_neg h]
  repeat' split
  all_goals exact ⟨nofun, nofun⟩

end Selection

section Storing
variable {cfg : Config} {s : State} {b : Byte}

/-- Only the length byte can declare a frame that does not fit (R96). -/
theorem unrepresentable_of_ne (h : s.cursor ≠ 3) : unrepresentable cfg b s = false := by
  simp [unrepresentable, h]

/-- No frame completes where EXPECTED is not the number of bytes staged with this one (R97). -/
theorem frameComplete_storing_of_ne (h : ∀ e, s.expected = some e → e.toNat ≠ s.cursor + 1) :
    frameComplete (storing cfg b s) = false := by
  rw [Bool.eq_false_iff, ne_eq, frameComplete_storing]
  rintro ⟨-, e, he, hlen⟩
  exact h e he hlen

theorem frameComplete_storing_of_unknown (h : s.expected = none) : frameComplete (storing cfg b s) = false :=
  frameComplete_storing_of_ne (by simp [h])

/-- The length byte completes no frame: it declares at least 8 bytes. -/
theorem frameComplete_storing_of_length (h : s.cursor = 3) : frameComplete (storing cfg b s) = false := by
  rw [Bool.eq_false_iff, ne_eq, frameComplete_storing]
  exact fun hf => hf.1 h

/-- A store at an offset other than the flags' and the length's touches the buffer and CURSOR alone. -/
theorem storing_of_ne (hc : s.cursor < cfg.cap) (h2 : s.cursor ≠ 2) (h3 : s.cursor ≠ 3) :
    storing cfg b s = { s with buf := s.buf.write s.cursor b, cursor := s.cursor + 1 } := by
  rw [storing_of_lt b hc, if_neg h2, if_neg h3]

theorem completing_of_complete (h : frameComplete s = true) :
    completing cfg s = (toIdle s, decodePacket cfg (staged s)) := if_pos h

theorem completing_of_incomplete (h : frameComplete s = false) : completing cfg s = (s, none) :=
  if_neg (by simp [h])

/-- A byte that is stored without completing a frame. -/
theorem stepByte_of_incomplete (hidle : ¬ (s.cursor = 0 ∧ b ≠ syncByte)) (hc : s.cursor < cfg.cap)
    (hu : unrepresentable cfg b s = false) (hf : frameComplete (storing cfg b s) = false) :
    stepByte cfg b s = (storing cfg b s, none) := by
  rw [stepByte_store cfg b s hidle hc hu, completing_of_incomplete hf]

/-- While staging within the buffer, STEP stores the byte at CURSOR, whatever else it does. -/
theorem stepByte_read_cursor (h0 : s.cursor ≠ 0) (hc : s.cursor < cfg.cap) (hwf : s.buf.wf = true) :
    (stepByte cfg b s).1.buf.read s.cursor = b := by
  have hst : (storing cfg b s).buf.read s.cursor = b := storeByte_read_same b hwf hc
  rcases stepByte_cases cfg b s with
    ⟨h, -, -⟩ | ⟨h, -, -⟩ | ⟨h3, -, -, h⟩ | ⟨-, -, -, -, h⟩ | ⟨-, -, -, -, h⟩
  · exact absurd h h0
  · omega
  · rw [h, h3]
    exact storeByte_read_same b hwf (by rwa [h3] at hc)
  · rw [h]; exact hst
  · rw [h]; exact hst

end Storing

section Runs
variable (s : State) (b : Byte)

/-! What running an arm or a byte operation does, as one record. -/

@[simp] theorem exec_drop : exec (.drop b) s = .next { s with result := .emitted none } := rfl

@[simp] theorem exec_sync :
    exec .sync s = .next { s with buf := s.buf.write 0 0xFF#8, cursor := 1, result := .emitted none } := rfl

@[simp] theorem exec_stageFlags : exec (.stageFlags b) s =
    .next { s with buf := s.buf.write 2 b, flags := b, cursor := 3, result := .emitted none } := rfl

theorem exec_completeEmit : exec (.completeEmit b) s =
    finish (toIdle (storing Config.hw b s), decodePacket Config.hw (staged (storing Config.hw b s))) := rfl

theorem exec_step : exec (.step b) s =
    .next (deliver (.emitted (stepByte Config.hw b s).2) (stepByte Config.hw b s).1) := rfl

theorem exec_feed (chunk : List Byte) : exec (.feed chunk) s =
    .next (deliver (.packets (feedBytes Config.hw chunk s).2) (feedBytes Config.hw chunk s).1) := rfl

variable {s b}

/-- STAGE at an offset that is its own is the storing part of STEP and the completion test. -/
theorem exec_stage (hc : s.cursor < Config.hw.cap) (h2 : s.cursor ≠ 2) (h3 : s.cursor ≠ 3) :
    exec (.stage b) s = finish (completing Config.hw (storing Config.hw b s)) := by
  change execStage b s = _
  rw [execStage, if_pos hc, storeByte, if_pos hc, storing_of_ne hc h2 h3]

end Runs

section Result
variable (cfg : Config) (r : Result)

/-! STEP and FEED carry the last result along and never read it (10_state.md R15). -/

theorem storeByte_deliver (off : Nat) (b : Byte) (s : State) :
    storeByte cfg off b (deliver r s) = deliver r (storeByte cfg off b s) := by
  unfold storeByte; split <;> rfl

theorem storing_deliver (b : Byte) (s : State) :
    storing cfg b (deliver r s) = deliver r (storing cfg b s) := by
  unfold storing; rw [deliver_cursor, storeByte_deliver]; rfl

theorem completing_deliver (s : State) :
    completing cfg (deliver r s) = (deliver r (completing cfg s).1, (completing cfg s).2) := by
  have hf : frameComplete (deliver r s) = frameComplete s := rfl
  unfold completing
  rw [hf]; split <;> rfl

theorem stepByte_deliver (b : Byte) (s : State) :
    stepByte cfg b (deliver r s) = (deliver r (stepByte cfg b s).1, (stepByte cfg b s).2) := by
  have hu : unrepresentable cfg b (deliver r s) = unrepresentable cfg b s := rfl
  unfold stepByte
  rw [deliver_cursor, hu, storeByte_deliver, storing_deliver, completing_deliver]
  repeat' split
  all_goals rfl

theorem feedBytes_deliver (chunk : List Byte) (s : State) :
    feedBytes cfg chunk (deliver r s) = (deliver r (feedBytes cfg chunk s).1, (feedBytes cfg chunk s).2) := by
  induction chunk generalizing s with
  | nil => rfl
  | cons b bs ih => rw [feedBytes_cons, feedBytes_cons, stepByte_deliver, ih]

end Result

section Feed
variable {cfg : Config}

/-- Stray bytes fed to an idle decoder are dropped, however many (R91). -/
theorem feedBytes_stray {chunk : List Byte} {s : State} (h0 : s.cursor = 0) (h : ∀ b ∈ chunk, b ≠ syncByte) :
    feedBytes cfg chunk s = (s, []) := by
  induction chunk with
  | nil => rfl
  | cons b bs ih =>
    obtain ⟨hb, hbs⟩ := List.forall_mem_cons.mp h
    rw [feedBytes_cons, stepByte_drop cfg b s h0 hb, ih hbs]
    rfl

/-- A byte that is stored without completing a frame gives no packet, and the rest is fed from there. -/
theorem feedBytes_cons_of_incomplete {b : Byte} {bs : List Byte} {s : State}
    (hidle : ¬ (s.cursor = 0 ∧ b ≠ syncByte)) (hc : s.cursor < cfg.cap)
    (hu : unrepresentable cfg b s = false) (hf : frameComplete (storing cfg b s) = false) :
    feedBytes cfg (b :: bs) s = feedBytes cfg bs (storing cfg b s) := by
  rw [feedBytes_cons, stepByte_of_incomplete hidle hc hu hf]
  rfl

end Feed

section Frame
variable {cfg : Config} {s : State} {bytes : List Byte} {e : Option (BitVec 9)} {b : Byte}

/-- A decoder that has staged exactly `bytes` and holds `e` in EXPECTED. -/
structure Staging (s : State) (bytes : List Byte) (e : Option (BitVec 9)) : Prop where
  canonical : s.buf.wf = true
  staged : staged s = bytes
  expected : s.expected = e

theorem Staging.cursor (h : Staging s bytes e) : s.cursor = bytes.length := by
  rw [← h.staged, Machine.staged, Memory.readRange_length]

theorem Staging.of_idle (hs : Idle s) (hwf : s.buf.wf = true) : Staging s [] none where
  canonical := hwf
  staged := by rw [Machine.staged, hs.cursor]; rfl
  expected := hs.expected

/-- A store appends its byte; at offset 3 it also fixes EXPECTED. -/
theorem Staging.storing (h : Staging s bytes e) (hc : bytes.length < cfg.cap) :
    Staging (storing cfg b s) (bytes ++ [b]) (if bytes.length = 3 then some (frameLen s.flags b) else e) where
  canonical := storeByte_wf cfg _ b h.canonical
  staged := by rw [staged_storing b h.canonical (by rwa [h.cursor]), h.staged]
  expected := by rw [storing_expected, h.cursor, h.expected]

/-- At an offset other than 3 a store leaves EXPECTED as it is. -/
theorem Staging.storing_of_ne (h : Staging s bytes e) (hc : bytes.length < cfg.cap) (h3 : bytes.length ≠ 3) :
    Staging (Machine.storing cfg b s) (bytes ++ [b]) e := by
  have hst := h.storing (b := b) hc
  rwa [if_neg h3] at hst

/-- The store of the length byte fixes EXPECTED (R95). -/
theorem Staging.storing_of_eq (h : Staging s bytes e) (hc : bytes.length < cfg.cap) (h3 : bytes.length = 3) :
    Staging (Machine.storing cfg b s) (bytes ++ [b]) (some (frameLen s.flags b)) := by
  have hst := h.storing (b := b) hc
  rwa [if_pos h3] at hst

/-- A byte fed before the frame's last one is stored, and the rest is fed from there. -/
theorem Staging.feedBytes_cons (h : Staging s bytes e) (hc : bytes.length < cfg.cap) (h3 : bytes.length ≠ 3)
    (hb : bytes = [] → b = syncByte) (he : ∀ x, e = some x → x.toNat ≠ bytes.length + 1) (bs : List Byte) :
    feedBytes cfg (b :: bs) s = feedBytes cfg bs (Machine.storing cfg b s) := by
  have hcur := h.cursor
  refine feedBytes_cons_of_incomplete ?_ (by omega) (unrepresentable_of_ne (by omega)) ?_
  · rintro ⟨h0, hne⟩
    exact hne (hb (List.length_eq_zero_iff.mp (hcur ▸ h0)))
  · exact frameComplete_storing_of_ne fun x hx => hcur ▸ he x (h.expected ▸ hx)

/-- The first four bytes of a frame, from an idle decoder: they are staged, the frame length is known, and nothing
has been handed out. -/
theorem feedBytes_header {v f n : Byte} (hcap : 264 ≤ cfg.cap) (hs : Idle s) (hwf : s.buf.wf = true) :
    ∃ t, Staging t [syncByte, v, f, n] (some (frameLen f n)) ∧
      ∀ body, feedBytes cfg (syncByte :: v :: f :: n :: body) s = feedBytes cfg body t := by
  have st0 := Staging.of_idle hs hwf
  have st1 := st0.storing_of_ne (cfg := cfg) (b := syncByte) (by simp; omega) (by simp)
  have st2 := st1.storing_of_ne (cfg := cfg) (b := v) (by simp; omega) (by simp)
  have st3 := st2.storing_of_ne (cfg := cfg) (b := f) (by simp; omega) (by simp)
  have st4 := st3.storing_of_eq (cfg := cfg) (b := n) (by simp; omega) rfl
  have hflags := (storing_flags cfg f _).trans (if_pos st2.cursor)
  rw [hflags] at st4
  refine ⟨_, st4, fun body => ?_⟩
  rw [st0.feedBytes_cons (by simp; omega) (by simp) (by simp) (by simp),
    st1.feedBytes_cons (by simp; omega) (by simp) (by simp) (by simp),
    st2.feedBytes_cons (by simp; omega) (by simp) (by simp) (by simp)]
  have c3 := st3.cursor
  refine feedBytes_cons_of_incomplete ?_ ?_ (unrepresentable_eq_false n _ hcap) (frameComplete_storing_of_length c3)
  · rw [c3]; simp
  · rw [c3]; simp; omega

/-- The bytes after the length byte, up to the last one the frame declares: the only output is DECODE of everything
staged, and the decoder ends idle. -/
theorem Staging.feedBytes_body {x : BitVec 9} {body : List Byte} (h : Staging s bytes (some x))
    (h4 : 4 ≤ bytes.length) (hcap : x.toNat ≤ cfg.cap) (hbody : body ≠ [])
    (hlen : x.toNat = bytes.length + body.length) :
    (feedBytes cfg body s).2 = (decodePacket cfg (bytes ++ body)).toList ∧ Idle (feedBytes cfg body s).1 := by
  induction body generalizing s bytes with
  | nil => exact absurd rfl hbody
  | cons b bs ih =>
    rw [List.length_cons] at hlen
    have hc : bytes.length < cfg.cap := by omega
    cases bs with
    | nil =>
      have hcur := h.cursor
      have hf : frameComplete (Machine.storing cfg b s) = true :=
        (frameComplete_storing cfg b s).mpr ⟨by omega, x, h.expected, by rw [hlen, hcur]; rfl⟩
      rw [Machine.feedBytes_cons, stepByte_store cfg b s (by rintro ⟨h0, -⟩; omega) (by omega)
        (unrepresentable_of_ne (by omega)), completing_of_complete hf, (h.storing hc).staged]
      exact ⟨List.append_nil _, rfl, rfl⟩
    | cons b' bs =>
      rw [List.length_cons] at hlen
      rw [h.feedBytes_cons hc (by omega) (by rintro rfl; simp at h4) (by rintro _ ⟨⟩; omega), List.append_cons]
      refine ih (h.storing_of_ne hc (by omega)) ?_ (List.cons_ne_nil _ _) ?_
      · simp; omega
      · simp; omega

/-- One whole frame fed to an idle decoder: its packet, if it decodes, and an idle decoder again. -/
theorem feedBytes_frame {v f n : Byte} {body : List Byte} (hcap : 264 ≤ cfg.cap) (hs : Idle s)
    (hwf : s.buf.wf = true) (hlen : body.length + 4 = (frameLen f n).toNat) :
    (feedBytes cfg (syncByte :: v :: f :: n :: body) s).2 =
        (decodePacket cfg (syncByte :: v :: f :: n :: body)).toList ∧
      Idle (feedBytes cfg (syncByte :: v :: f :: n :: body) s).1 := by
  obtain ⟨h8, h264⟩ := frameLen_bounds f n
  obtain ⟨t, ht, hfeed⟩ := feedBytes_header (v := v) (f := f) (n := n) hcap hs hwf
  rw [hfeed]
  refine ht.feedBytes_body (by simp) (by omega) ?_ ?_
  · rintro rfl; simp at hlen; omega
  · simp; omega

end Frame

section Invariant
variable {cfg : Config} {s : State} {e : BitVec 9}

/-- Under the invariant a known EXPECTED is past the header and at least 8 (10_state.md R20). -/
theorem bounds_of_known (hi : Inv cfg s) (he : s.expected = some e) : 4 ≤ s.cursor ∧ 8 ≤ e.toNat := by
  have h4 : 4 ≤ s.cursor := by
    by_contra hlt
    rw [hi.unknown (by omega)] at he
    cases he
  rw [hi.known h4, Option.some.injEq] at he
  exact ⟨h4, he ▸ (frameLen_bounds _ _).1⟩

end Invariant

/-- Settles O32: DROP's condition is the first test of the selection, and FEED drops byte after byte. -/
theorem dropDiscardsStrayBytes : Obligations.DropDiscardsStrayBytes := by
  refine ⟨fun s b h0 hb => ⟨selectArm_of_stray h0 hb, exec_drop s b⟩, fun s chunk h0 h => ?_⟩
  rw [exec_feed, feedBytes_stray h0 h]
  rfl

/-- Settles O33: with EXPECTED unknown the store of the sync byte completes nothing, so the offset selects SYNC. -/
theorem syncStartsFrame : Obligations.SyncStartsFrame := by
  rintro s ⟨h0, he⟩
  refine ⟨?_, exec_sync s⟩
  rw [selectArm_of_incomplete (fun h => h.2 rfl) (by simp [h0]) (unrepresentable_of_ne (by omega))
    (frameComplete_storing_of_unknown he), if_pos h0]

/-- Settles O34: STAGE is the storing part of STEP; the completion test splits the two clauses, and it can hold only
where the invariant gives EXPECTED a frame length. -/
theorem stageStoresAtCursor : Obligations.StageStoresAtCursor := by
  intro s b hi hcur
  have hc : s.cursor < Config.hw.cap := hi.inside
  have h2 : s.cursor ≠ 2 := by omega
  have h3 : s.cursor ≠ 3 := by omega
  refine ⟨fun hne => ?_, fun e he hlen => ?_, Memory.read_write hi.canonical _ _, by simp at hc; omega⟩
  · have hf := frameComplete_storing_of_ne (cfg := Config.hw) (b := b) hne
    constructor
    · rw [selectArm_of_incomplete (by omega) hc (unrepresentable_of_ne h3) hf, if_neg (by omega), if_neg h2,
        if_neg h3]
    · rw [exec_stage hc h2 h3, completing_of_incomplete hf, storing_of_ne hc h2 h3]
      rfl
  · have hf := (frameComplete_storing Config.hw b s).mpr ⟨h3, e, he, hlen⟩
    refine ⟨hlen ▸ (bounds_of_known hi he).2, ?_⟩
    rw [exec_stage hc h2 h3, completing_of_complete hf, staged_storing b hi.canonical hc, storing_of_ne hc h2 h3]
    rfl

/-- Settles O35: with EXPECTED unknown nothing completes at offset 2, so the offset selects STAGE.FLAGS. -/
theorem stageFlagsRemembersFlags : Obligations.StageFlagsRemembersFlags := by
  intro s b h2 he
  refine ⟨?_, exec_stageFlags s b⟩
  rw [selectArm_of_incomplete (by omega) (by simp [h2]) (unrepresentable_of_ne (by omega))
    (frameComplete_storing_of_unknown he), if_neg (by omega), if_pos h2]

/-- Settles O38: a known EXPECTED puts CURSOR past the header, so the completing store touches BUF and CURSOR alone
and DECODE's answer selects the arm. -/
theorem completeEmitsPacket : Obligations.CompleteEmitsPacket := by
  rintro s b p hi ⟨e, he, hlen⟩ hp
  have h4 := (bounds_of_known hi he).1
  have hc : s.cursor < Config.hw.cap := hi.inside
  have hf := (frameComplete_storing Config.hw b s).mpr ⟨by omega, e, he, hlen⟩
  constructor
  · rw [selectArm_of_complete (by omega) hc (unrepresentable_of_ne (by omega)) hf hi.canonical, hp]
    rfl
  · rw [exec_completeEmit, staged_storing b hi.canonical hc, hp, storing_of_ne hc (by omega) (by omega)]
    rfl

/-- Settles O44: the state STEP leaves differs from the fold's own only in the result, which FEED never reads. -/
theorem feedFoldsStep : Obligations.FeedFoldsStep := by
  refine ⟨fun s => rfl, fun s b bs => ?_⟩
  refine ⟨_, _, _, _, exec_step s b, rfl, exec_feed _ bs, rfl, ?_⟩
  rw [exec_feed, feedBytes_cons, feedBytes_deliver]
  rfl

/-- Settles O47: the first clause is one whole frame fed to an idle decoder; in the second, the staging selection
and the store of STEP. -/
theorem syncTestedOnlyWhileIdle : Obligations.SyncTestedOnlyWhileIdle := by
  constructor
  · intro s hs hwf
    refine ⟨_, exec_feed s _, ?_⟩
    rw [deliver_result, (feedBytes_frame (by simp) hs hwf rfl).1]
    rfl
  · intro s t b h1 hc hwf ht
    obtain ⟨hsync, hdrop⟩ := selectArm_of_staging (cfg := Config.hw) (b := b) (show s.cursor ≠ 0 by omega)
    rw [exec_step, Host.Outcome.next.injEq] at ht
    subst ht
    exact ⟨hsync, hdrop, stepByte_read_cursor (by omega) hc hwf⟩

end Sys2Proof.Proofs.DecoderFsm
end

section
/-! PROOFS. Single-frame DECODE (spec/42_frame_decode.md R120 to R124): its run, when this hardware decodes a sequence
and to what, and the statements settled from them. -/

namespace Sys2Proof.Proofs.FrameDecode

open Sys2Proof.Machine Sys2Proof.Safety Sys2Proof.Proofs.PacketHelpers

@[simp] theorem exec_decode (frame : List Byte) (s : State) :
    exec (.decode frame) s = .next { s with result := .decoded (decodePacket Config.hw frame) } := rfl

/-- A last byte makes the exclusive-or of all bytes zero exactly when it is that of the bytes before it. -/
theorem xor8_concat_eq_zero_iff (init : List Byte) (last : Byte) :
    xor8 (init ++ [last]) = 0x00#8 ↔ xor8 init = last := by
  rw [xor8_append, xor8_cons, xor8_nil, BitVec.xor_zero, BitVec.xor_eq_zero_iff]

/-- This hardware takes every length byte (92_eei_decisions.md D8). -/
theorem lengthRefused_hw (n : Byte) : lengthRefused Config.hw n = false := rfl

section Header
variable {b0 b1 f n v1 v0 c1 c0 : Byte} {body : List Byte}

/-- DECODE gives a packet exactly when the frame is as long as it declares (R122) and, where flags bit 0 is set, its
checksum is right (R123); the packet is then built from the header's fields and the `n` bytes after it (R124). -/
theorem decodePacket_eq_some_iff {p : Packet} :
    decodePacket Config.hw (b0 :: b1 :: f :: n :: v1 :: v0 :: c1 :: c0 :: body) = some p ↔
      n.toNat + f.toNat % 2 ≤ body.length ∧
      (f.getLsbD 0 = true → xor8 (b0 :: b1 :: f :: n :: v1 :: v0 :: c1 :: c0 :: body) = 0x00#8) ∧
      mkPacket (be16Get v1 v0) (be16Get c1 c0) f (body.take n.toNat) = p := by
  rw [decodePacket_cons, lengthRefused_hw, if_neg Bool.false_ne_true, frameLen_toNat_mod, ckPresent]
  by_cases hlen : n.toNat + f.toNat % 2 ≤ body.length
  · rw [if_neg (by omega)]
    by_cases hsum : f.getLsbD 0 = true → xor8 (b0 :: b1 :: f :: n :: v1 :: v0 :: c1 :: c0 :: body) = 0x00#8
    · rw [if_neg (by simpa using hsum), Option.some.injEq]
      exact ⟨fun h => ⟨hlen, hsum, h⟩, fun ⟨_, _, h⟩ => h⟩
    · rw [if_pos (by simpa using hsum)]
      exact iff_of_false nofun fun ⟨_, h, _⟩ => hsum h
  · rw [if_pos (by omega)]
    exact iff_of_false nofun fun ⟨h, _, _⟩ => hlen h

/-- A frame shorter than it declares is not decoded (R122). -/
theorem decodePacket_eq_none_of_length (h : body.length < n.toNat + f.toNat % 2) :
    decodePacket Config.hw (b0 :: b1 :: f :: n :: v1 :: v0 :: c1 :: c0 :: body) = none := by
  refine Option.eq_none_iff_forall_ne_some.mpr fun p hp => ?_
  obtain ⟨hlen, -, -⟩ := decodePacket_eq_some_iff.mp hp
  omega

/-- A frame with the checksum flag and a wrong checksum is not decoded (R123). -/
theorem decodePacket_eq_none_of_checksum (hf : f.getLsbD 0 = true)
    (h : xor8 (b0 :: b1 :: f :: n :: v1 :: v0 :: c1 :: c0 :: body) ≠ 0x00#8) :
    decodePacket Config.hw (b0 :: b1 :: f :: n :: v1 :: v0 :: c1 :: c0 :: body) = none := by
  refine Option.eq_none_iff_forall_ne_some.mpr fun p hp => ?_
  obtain ⟨-, hsum, -⟩ := decodePacket_eq_some_iff.mp hp
  exact h (hsum hf)

/-- The run of DECODE on a frame that passes both tests hands a packet to the host. -/
theorem exec_decode_gives_packet (s : State) (hlen : n.toNat + f.toNat % 2 ≤ body.length)
    (hsum : f.getLsbD 0 = true → xor8 (b0 :: b1 :: f :: n :: v1 :: v0 :: c1 :: c0 :: body) = 0x00#8) :
    ∃ p, exec (.decode (b0 :: b1 :: f :: n :: v1 :: v0 :: c1 :: c0 :: body)) s =
      .next { s with result := .decoded (some p) } :=
  ⟨_, by rw [exec_decode, decodePacket_eq_some_iff.mpr ⟨hlen, hsum, rfl⟩]⟩

end Header

/-- Settles O19: the header pattern needs 8 bytes, and 8 bytes that declare no more pass both later tests. -/
theorem decodeTooShort : Obligations.DecodeTooShort := by
  refine ⟨fun frame s h => ?_, fun b0 b1 f v1 v0 c1 c0 s hf => ?_⟩
  · rw [exec_decode, decodePacket_short Config.hw h]
  · have hbit : f.toNat % 2 = 0 := by rw [← ckPresent_toNat, ckPresent, hf]; rfl
    exact exec_decode_gives_packet s (by simp [hbit]) (by rw [hf]; nofun)

/-- Settles O20: the length test alone refuses the first clause's frames and passes the second's. -/
theorem decodeLengthMismatch : Obligations.DecodeLengthMismatch := by
  refine fun b0 b1 f n v1 v0 c1 c0 body s => ⟨fun hlen => ?_, fun hlen hsum => ?_⟩
  · rw [exec_decode, decodePacket_eq_none_of_length (by omega)]
  · exact exec_decode_gives_packet s (by omega) hsum

/-- Settles O21: DECODE compares the exclusive-or of all bytes with zero, which is the comparison of that of all but
the last with the last. -/
theorem decodeChecksum : Obligations.DecodeChecksum := by
  intro b0 b1 f n v1 v0 c1 c0 body last s hlen
  have hbody : n.toNat + f.toNat % 2 ≤ (body ++ [last]).length := by
    rw [List.length_append, List.length_singleton]; omega
  have hzero : xor8 (b0 :: b1 :: f :: n :: v1 :: v0 :: c1 :: c0 :: (body ++ [last])) = 0x00#8 ↔
      xor8 (b0 :: b1 :: f :: n :: v1 :: v0 :: c1 :: c0 :: body) = last :=
    xor8_concat_eq_zero_iff (b0 :: b1 :: f :: n :: v1 :: v0 :: c1 :: c0 :: body) last
  refine ⟨fun hf hne => ?_, fun _ heq => ?_, fun hf => ?_, hzero.symm⟩
  · rw [exec_decode, decodePacket_eq_none_of_checksum hf (mt hzero.mp hne)]
  · exact exec_decode_gives_packet s hbody fun _ => hzero.mpr heq
  · exact exec_decode_gives_packet s hbody (by rw [hf]; nofun)

/-- Settles O22: a decoded packet is the packet builder's, on the two big-endian fields and a payload that the length
test found whole. -/
theorem decodeExtractsFields : Obligations.DecodeExtractsFields := by
  intro b0 b1 f n v1 v0 c1 c0 body s p h
  have hp : decodePacket Config.hw (b0 :: b1 :: f :: n :: v1 :: v0 :: c1 :: c0 :: body) = some p := by
    simpa using h
  obtain ⟨hlen, -, rfl⟩ := decodePacket_eq_some_iff.mp hp
  exact ⟨be16Get_toNat v1 v0, be16Get_toNat c1 c0, rfl, rfl, List.length_take_of_le (by omega),
    packetConsistent_mkPacket _ _ _ _⟩

end Sys2Proof.Proofs.FrameDecode
end

section
/-! PROOFS. The frame encoder (spec/43_frame_encoder.md R136 to R139): its run, when it fails, the bytes of the frame it
writes, and the statements settled from them. -/

namespace Sys2Proof.Proofs.FrameEncoder

open Sys2Proof.Machine Sys2Proof.Proofs.PacketHelpers

@[simp] theorem exec_encode (v c : Half) (p : List Byte) (f : Byte) (s : State) :
    exec (.encode v c p f) s = .next { s with result := .encoded (encodeFrame v c p f) } := rfl

/-- A payload past the limit is refused; with `encodeFrame_ok` this is all ENCODE can do. -/
theorem encodeFrame_error (v c : Half) {p : List Byte} (f : Byte) (h : 254 < p.length) :
    encodeFrame v c p f = .error .payloadTooLarge :=
  if_pos h

/-- The frame layout with each big-endian field as quotient and remainder by 256. -/
theorem wireFrame_eq_ofNat (version f : Byte) (v c : Half) (p tail : List Byte) :
    wireFrame version f v c p tail = [0xFF#8, version, f, BitVec.ofNat 8 p.length, BitVec.ofNat 8 (v.toNat / 256),
      BitVec.ofNat 8 (v.toNat % 256), BitVec.ofNat 8 (c.toNat / 256), BitVec.ofNat 8 (c.toNat % 256)] ++ p ++ tail := by
  rw [wireFrame, be16Put_eq_ofNat, be16Put_eq_ofNat]
  rfl

section Layout
variable (v c : Half) {p : List Byte} {f : Byte}

/-- Without flags bit 0 nothing follows the payload (R139). -/
theorem encodeFrame_plain (h : p.length ≤ 254) (hf : f.getLsbD 0 = false) :
    encodeFrame v c p f = .ok (wireFrame versionByte f v c p []) := by
  rw [encodeFrame_ok v c f h, ckPresent, hf, if_neg Bool.false_ne_true]

/-- With flags bit 0 the exclusive-or of all bytes before it follows the payload (R139). -/
theorem encodeFrame_checksummed (h : p.length ≤ 254) (hf : f.getLsbD 0 = true) :
    encodeFrame v c p f = .ok (wireFrame versionByte f v c p [xor8 (wireFrame versionByte f v c p [])]) := by
  rw [encodeFrame_ok v c f h, ckPresent, hf, if_pos rfl]

end Layout

/-- Settles O27: ENCODE tests the payload length first, and that test alone decides between error and frame. -/
theorem encodeRejectsLongPayload : Obligations.EncodeRejectsLongPayload := by
  refine fun v c p f s => ⟨fun hlong => ?_, fun hshort => ?_⟩
  · rw [exec_encode, encodeFrame_error v c f hlong]
  · exact ⟨_, by rw [exec_encode, encodeFrame_ok v c f hshort]⟩

/-- Settles O28: flags bit 0 decides the tail, and the layout is R50's with both fields as bytes. -/
theorem encodeLaysOutFrame : Obligations.EncodeLaysOutFrame := by
  intro v c p f s hlen body
  have hbody : wireFrame versionByte f v c p [] = body := by
    rw [wireFrame_eq_ofNat, List.append_nil]
  refine ⟨fun hf => ?_, fun hf => ?_⟩
  · rw [exec_encode, encodeFrame_plain v c hlen hf, hbody]
  · rw [exec_encode, encodeFrame_checksummed v c hlen hf, hbody, wireFrame_eq_ofNat]

end Sys2Proof.Proofs.FrameEncoder
end

section
/-! PROOFS. Completion and errors (spec/60_exceptions.md R163): what every instruction's run ends in, when ENCODE fails,
and the statement settled from them. -/

namespace Sys2Proof.Proofs.Exceptions

open Sys2Proof.Machine Sys2Proof.Proofs.FrameEncoder

section Arms
variable (b : Byte) (s : State)

/-! The two arms that test before they end: either way the arm ends as every arm does. -/

theorem exec_stage_eq_finish : ∃ r, exec (.stage b) s = finish r := by
  change ∃ r, execStage b s = finish r
  unfold execStage
  split
  · exact ⟨_, rfl⟩
  · exact ⟨_, rfl⟩

theorem exec_stageLen_eq_finish : ∃ r, exec (.stageLen b) s = finish r := by
  change ∃ r, execStageLen b s = finish r
  unfold execStageLen
  split
  · exact ⟨_, rfl⟩
  · exact ⟨_, rfl⟩

end Arms

/-- Every instruction answers a next state, and only ENCODE hands an encoder's value to the host: every other arm ends
by handing over a value of its own kind. -/
theorem exec_next (i : Instr) (s : State) : ∃ t, exec i s = .next t ∧
    ∀ out, t.result = .encoded out → ∃ v c p f, i = .encode v c p f ∧ encodeFrame v c p f = out := by
  cases i with
  | encode v c p f => exact ⟨_, exec_encode v c p f s, fun out h => ⟨v, c, p, f, rfl, Result.encoded.inj h⟩⟩
  | stage b =>
    obtain ⟨r, hr⟩ := exec_stage_eq_finish b s
    exact ⟨_, hr, nofun⟩
  | stageLen b =>
    obtain ⟨r, hr⟩ := exec_stageLen_eq_finish b s
    exact ⟨_, hr, nofun⟩
  | _ => exact ⟨_, rfl, nofun⟩

/-- The converse of `encodeFrame_error`: ENCODE fails with its one error, and only on a payload past the limit. -/
theorem eq_payloadTooLarge_of_encodeFrame_error {v c : Half} {p : List Byte} {f : Byte} {e : EncodeError}
    (h : encodeFrame v c p f = .error e) : e = .payloadTooLarge ∧ 254 < p.length := by
  rcases Nat.lt_or_ge 254 p.length with hlong | hshort
  · rw [encodeFrame_error v c f hlong] at h
    exact ⟨(Except.error.inj h).symm, hlong⟩
  · rw [encodeFrame_ok v c f hshort] at h
    exact nomatch h

/-- Settles O8: every instruction answers a next state, and an error in it is the encoder's. -/
theorem everyOperationCompletes : Obligations.EveryOperationCompletes := by
  refine ⟨fun i s => ?_, fun i s t e hrun herr => ?_⟩
  · obtain ⟨t, hrun, -⟩ := exec_next i s
    exact ⟨t, hrun⟩
  · obtain ⟨t', hrun', hencode⟩ := exec_next i s
    obtain rfl : t' = t := Host.Outcome.next.inj (hrun'.symm.trans hrun)
    obtain ⟨v, c, p, f, hi, hframe⟩ := hencode _ herr
    obtain ⟨he, hlong⟩ := eq_payloadTooLarge_of_encodeFrame_error hframe
    exact ⟨he, v, c, p, f, hi, hlong⟩

end Sys2Proof.Proofs.Exceptions
end

section
/-! PROOFS. The wire encoding of the frame kinds (spec/30_encoding.md sections 1, 4 and 5): decoding inverts
encoding in both directions, the header patterns of R64, and the statements settled from them. -/

namespace Sys2Proof.Proofs.WireEncoding

open Sys2Proof.Machine

section Layout

/-- What follows the payload, whoever it belongs to, follows the frame without its tail. -/
theorem wireFrame_append (version f : Byte) (vendor raw : Half) (p tail rest : List Byte) :
    wireFrame version f vendor raw p tail ++ rest = wireFrame version f vendor raw p [] ++ (tail ++ rest) := by
  simp [wireFrame]

/-- Eight header bytes and a payload of the declared length are a frame's layout (R50). -/
theorem wireFrame_of_header (version f n v1 v0 c1 c0 : Byte) {p : List Byte} (hn : p.length = n.toNat) :
    wireFrame version f (be16Get v1 v0) (be16Get c1 c0) p [] =
      syncByte :: version :: f :: n :: v1 :: v0 :: c1 :: c0 :: p := by
  rw [wireFrame, be16Put_get, be16Put_get, hn, BitVec.ofNat_toNat, BitVec.setWidth_eq]
  simp

/-- What decodes begins with a frame's layout up to its payload. -/
theorem decodeFrame_ok_layout {bytes : List Byte} {r : Instr × List Byte} (h : decodeFrame bytes = .ok r) :
    ∃ version f vendor raw, ∃ p t : List Byte, p.length ≤ 255 ∧
      bytes = wireFrame version f vendor raw p [] ++ t := by
  unfold decodeFrame at h
  split at h
  next b0 version f n v1 v0 c1 c0 body =>
    split at h
    · cases h
    next hsync =>
      split at h
      · cases h
      next hlen =>
        have hn : (body.take n.toNat).length = n.toNat := List.length_take_of_le (by omega)
        refine ⟨version, f, be16Get v1 v0, be16Get c1 c0, body.take n.toNat, body.drop n.toNat, ?_, ?_⟩
        · have := n.isLt
          omega
        · rw [wireFrame_of_header version f n v1 v0 c1 c0 hn, ← not_not.mp hsync]
          simp
  · cases h

end Layout

/-- Settles O1: every frame kind is laid out by `wireFrame`, which `decodeFrame_wire` reads back, and the fields
joined into the flags byte and the raw command id come apart again. -/
theorem frameEncodingRoundTrip : Obligations.FrameEncodingRoundTrip := by
  intro i bytes rest hframe hwf henc
  cases i with
  | frameCmd | frameCmdCk | frameAck | frameAckCk =>
    obtain rfl := Option.some.inj henc
    rw [wireFrame_append, decodeFrame_wire _ _ _ _ _ (of_decide_eq_true hwf)]
    simp
  | _ => cases hframe

/-- Settles O2: the decoded bytes are a frame's layout; the kind read off its flags byte and raw command id encodes
to those two again. -/
theorem frameDecodingIsExact : Obligations.FrameDecodingIsExact := by
  intro i bytes rest hdec
  obtain ⟨version, f, vendor, raw, p, t, hp, rfl⟩ := decodeFrame_ok_layout hdec
  rw [decodeFrame_wire version f vendor raw t hp] at hdec
  have hflags := flagsByte_of f
  have hraw := rawOf_of raw
  have hwf : Instr.payloadFits p = true := decide_eq_true hp
  split at hdec
  case h_5 => cases hdec
  all_goals
    rename_i hck hack
    rw [hck] at hflags
    rw [hack] at hraw
    obtain ⟨rfl, rfl⟩ := Prod.mk.inj (Except.ok.inj hdec)
    exact ⟨rfl, hwf, _, rfl, by simp [wireFrame, hflags, hraw]⟩

section HeaderPattern

/-- The frame kind with these two selecting bits; a kind without a checksum has no use for `k`. -/
def frameKind (ck ack : Bool) (version : Byte) (r : BitVec 7) (vendor : Half) (c : BitVec 15) (p : List Byte)
    (k : Byte) : Instr :=
  match ck, ack with
  | false, false => .frameCmd version r vendor c p
  | false, true => .frameAck version r vendor c p
  | true, false => .frameCmdCk version r vendor c p k
  | true, true => .frameAckCk version r vendor c p k

/-- The match value of R64 for a kind: the sync byte, flags bit 0 and the acknowledgement bit in their places. -/
def headerMatch (ck ack : Bool) : BitVec 64 :=
  0xFF#8 ++ 0#15 ++ BitVec.ofBool ck ++ 0#24 ++ BitVec.ofBool ack ++ 0#15

/-- The two selecting bits of a frame kind. -/
def selectingBits : Instr → Option (Bool × Bool)
  | .frameCmd _ _ _ _ _ => some (false, false)
  | .frameAck _ _ _ _ _ => some (false, true)
  | .frameCmdCk _ _ _ _ _ _ => some (true, false)
  | .frameAckCk _ _ _ _ _ _ => some (true, true)
  | _ => none

theorem selectingBits_frameKind (ck ack : Bool) (version : Byte) (r : BitVec 7) (vendor : Half) (c : BitVec 15)
    (p : List Byte) (k : Byte) : selectingBits (frameKind ck ack version r vendor c p k) = some (ck, ack) := by
  cases ck <;> cases ack <;> rfl

/-- A masked word is a value the mask covers exactly when the two agree on the mask's bits. -/
theorem and_mask_eq_iff {w mask m : BitVec 64} (hm : m &&& mask = m) :
    w &&& mask = m ↔ ∀ i, i < 64 → mask.getLsbD i = true → w.getLsbD i = m.getLsbD i := by
  constructor
  · rintro rfl i - hi
    rw [BitVec.getLsbD_and, hi, Bool.and_true]
  · intro h
    refine BitVec.eq_of_getLsbD_eq fun i hi => ?_
    rw [← hm, BitVec.getLsbD_and, BitVec.getLsbD_and]
    cases hbit : mask.getLsbD i with
    | false => simp
    | true => rw [h i hi hbit]

variable (w : BitVec 64)

theorem extract_eq_syncByte_iff :
    w.extractLsb' 56 8 = syncByte ↔ ∀ i, i < 64 → 56 ≤ i → w.getLsbD i = true := by
  have hones : ∀ j, j < 8 → syncByte.getLsbD j = true := by decide
  constructor
  · intro h i hi h56
    have hbit := hones (i - 56) (by omega)
    rw [← h, BitVec.getLsbD_extractLsb', Nat.add_sub_cancel' h56] at hbit
    simpa [show i - 56 < 8 by omega] using hbit
  · intro h
    refine BitVec.eq_of_getLsbD_eq fun j hj => ?_
    rw [BitVec.getLsbD_extractLsb', hones j hj, h (56 + j) (by omega) (by omega)]
    simpa using hj

/-- The sync byte's own mask: the first clause of every pattern of R64. -/
theorem and_syncMask_eq_iff :
    w &&& 0xFF00000000000000#64 = 0xFF00000000000000#64 ↔ w.extractLsb' 56 8 = syncByte := by
  have hmask : ∀ i, i < 64 → ((0xFF00000000000000#64).getLsbD i = true ↔ 56 ≤ i) := by decide
  rw [and_mask_eq_iff (by decide), extract_eq_syncByte_iff]
  refine forall_congr' fun i => forall_congr' fun hi => ?_
  rw [hmask i hi]
  exact forall_congr' fun h56 => by rw [(hmask i hi).mpr h56]

/-- A pattern of R64: the sync byte, flags bit 0 and the acknowledgement bit. -/
theorem and_kindMask_eq_iff (ck ack : Bool) : w &&& 0xFF00010000008000#64 = headerMatch ck ack ↔
    w.extractLsb' 56 8 = syncByte ∧ w.getLsbD 40 = ck ∧ w.getLsbD 15 = ack := by
  have hmask : ∀ i, i < 64 → ((0xFF00010000008000#64).getLsbD i = true ↔ 56 ≤ i ∨ i = 40 ∨ i = 15) := by decide
  have hsync : ∀ i, i < 64 → 56 ≤ i → (headerMatch ck ack).getLsbD i = true := by
    cases ck <;> cases ack <;> decide
  have hck : (headerMatch ck ack).getLsbD 40 = ck := by cases ck <;> cases ack <;> rfl
  have hack : (headerMatch ck ack).getLsbD 15 = ack := by cases ck <;> cases ack <;> rfl
  rw [and_mask_eq_iff (by cases ck <;> cases ack <;> rfl), extract_eq_syncByte_iff]
  constructor
  · intro h
    refine ⟨fun i hi h56 => ?_, ?_, ?_⟩
    · rw [h i hi ((hmask i hi).mpr (.inl h56)), hsync i hi h56]
    · rw [h 40 (by decide) rfl, hck]
    · rw [h 15 (by decide) rfl, hack]
  · rintro ⟨h56, h40, h15⟩ i hi hbit
    rcases (hmask i hi).mp hbit with hge | rfl | rfl
    · rw [h56 i hi hge, hsync i hi hge]
    · rw [h40, hck]
    · rw [h15, hack]

/-- The sixty-four bits of a word as the bytes of a header, and the zero bytes that complete it (log entry 10). -/
theorem tableFrame_toNat : tableFrame w.toNat =
    w.extractLsb' 56 8 :: w.extractLsb' 48 8 :: w.extractLsb' 40 8 :: w.extractLsb' 32 8 :: w.extractLsb' 24 8 ::
      w.extractLsb' 16 8 :: w.extractLsb' 8 8 :: w.extractLsb' 0 8 ::
      List.replicate ((w.extractLsb' 32 8).toNat + if ckPresent (w.extractLsb' 40 8) then 1 else 0) 0x00#8 := by
  rw [tableFrame, BitVec.ofNat_toNat, BitVec.setWidth_eq]
  rfl

theorem ckPresent_extract : ckPresent (w.extractLsb' 40 8) = w.getLsbD 40 := by
  simp [ckPresent]

theorem ackOf_extract : ackOf (be16Get (w.extractLsb' 8 8) (w.extractLsb' 0 8)) = w.getLsbD 15 := by
  rw [ackOf_eq_msb, be16Get_getLsbD _ _ (by decide)]
  simp

/-- A word that does not start with the sync byte is no frame. -/
theorem decodeTableWord_of_not_sync (h : w.extractLsb' 56 8 ≠ syncByte) : decodeTableWord 64 w.toNat = none := by
  rw [decodeTableWord, if_pos rfl, tableFrame_toNat, decodeFrame, if_pos h]

/-- A word that starts with the sync byte is a frame of the kind its two selecting bits say: the zero bytes that
complete it are as many as it declares. -/
theorem decodeTableWord_of_sync (h : w.extractLsb' 56 8 = syncByte) : ∃ version r vendor c p k,
    decodeTableWord 64 w.toNat = some (frameKind (w.getLsbD 40) (w.getLsbD 15) version r vendor c p k) := by
  have hlayout : tableFrame w.toNat =
      wireFrame (w.extractLsb' 48 8) (w.extractLsb' 40 8) (be16Get (w.extractLsb' 24 8) (w.extractLsb' 16 8))
        (be16Get (w.extractLsb' 8 8) (w.extractLsb' 0 8)) (List.replicate (w.extractLsb' 32 8).toNat 0x00#8) [] ++
      List.replicate (if w.getLsbD 40 then 1 else 0) 0x00#8 := by
    rw [tableFrame_toNat, ckPresent_extract, h, List.replicate_add,
      wireFrame_of_header _ _ _ _ _ _ _ List.length_replicate]
    rfl
  have hp : (List.replicate (w.extractLsb' 32 8).toNat 0x00#8).length ≤ 255 := by
    have := (w.extractLsb' 32 8).isLt
    rw [List.length_replicate]
    omega
  rw [decodeTableWord, if_pos rfl, hlayout, decodeFrame_wire _ _ _ _ _ hp, ckPresent_extract, ackOf_extract]
  cases w.getLsbD 40 <;> cases w.getLsbD 15 <;> exact ⟨_, _, _, _, _, 0x00#8, rfl⟩

/-- The kind of a header word by its pattern, for the four kinds at once. -/
theorem decodeTableWord_frameKind_iff (ck ack : Bool) :
    (∃ version r vendor c p k, decodeTableWord 64 w.toNat = some (frameKind ck ack version r vendor c p k)) ↔
      w &&& 0xFF00010000008000#64 = headerMatch ck ack := by
  rw [and_kindMask_eq_iff]
  by_cases hsync : w.extractLsb' 56 8 = syncByte
  · obtain ⟨version, r, vendor, c, p, k, hdec⟩ := decodeTableWord_of_sync w hsync
    constructor
    · rintro ⟨version', r', vendor', c', p', k', hdec'⟩
      have hbits := congrArg selectingBits (Option.some.inj (hdec.symm.trans hdec'))
      rw [selectingBits_frameKind, selectingBits_frameKind] at hbits
      exact ⟨hsync, Prod.mk.inj (Option.some.inj hbits)⟩
    · rintro ⟨-, rfl, rfl⟩
      exact ⟨version, r, vendor, c, p, k, hdec⟩
  · rw [decodeTableWord_of_not_sync w hsync]
    exact iff_of_false nofun fun h => hsync h.1

theorem decodeTableWord_eq_none_iff :
    decodeTableWord 64 w.toNat = none ↔ w &&& 0xFF00000000000000#64 ≠ 0xFF00000000000000#64 := by
  rw [ne_eq, and_syncMask_eq_iff]
  constructor
  · intro hnone hsync
    obtain ⟨_, _, _, _, _, _, hdec⟩ := decodeTableWord_of_sync w hsync
    exact nomatch hnone.symm.trans hdec
  · exact decodeTableWord_of_not_sync w

end HeaderPattern

/-- Settles O3: the decoder reads exactly the bits the mask keeps, and `headerMatch` is the match value of each
kind. -/
theorem headerPatternSelectsKind : Obligations.HeaderPatternSelectsKind := by
  intro w
  refine ⟨?_, decodeTableWord_frameKind_iff w true false, ?_, decodeTableWord_frameKind_iff w true true,
    decodeTableWord_eq_none_iff w⟩
  · exact Iff.trans (by simp [frameKind]) (decodeTableWord_frameKind_iff w false false)
  · exact Iff.trans (by simp [frameKind]) (decodeTableWord_frameKind_iff w false true)

/-- Settles O4: each word is run through the decoder. -/
theorem writtenWordsDecode : Obligations.WrittenWordsDecode :=
  ⟨rfl, rfl, rfl, rfl, rfl, rfl⟩

end Sys2Proof.Proofs.WireEncoding
end

section
/-! PROOFS. The arms of STEP (spec/41_decoder_fsm.md R91 to R100): the arm a state selects beside what STEP does
there, what each arm changes, the transition table, and the statements settled from them. -/

namespace Sys2Proof.Proofs.StepArms

open Sys2Proof.Machine Sys2Proof.Safety Sys2Proof.Proofs.PacketHelpers Sys2Proof.Proofs.DecoderFsm

section Runs
variable (s : State) (b : Byte)

/-! The arms whose run on this hardware is one record, in any state. -/

@[simp] theorem exec_abort : exec (.abort b) s = .next { s with
    buf := s.buf.write 3 b, cursor := 0, expected := none, result := .emitted none } := rfl

@[simp] theorem exec_guard :
    exec (.guard b) s = .next { s with cursor := 0, expected := none, result := .emitted none } := rfl

@[simp] theorem exec_srst :
    exec .srst s = .next { s with cursor := 0, expected := none, result := .nothing } := rfl

theorem exec_completeFail : exec (.completeFail b) s = finish (toIdle (storing Config.hw b s), none) := rfl

theorem exec_step_eq_finish : exec (.step b) s = finish (stepByte Config.hw b s) := rfl

/-- No declared frame exceeds this hardware's buffer, so the length byte never aborts here (R109). -/
@[simp] theorem exec_stageLen : exec (.stageLen b) s = .next { s with
    buf := s.buf.write 3 b, expected := some (frameLen s.flags b), cursor := 4, result := .emitted none } := by
  have hmax := (frameLen_bounds s.flags b).2
  exact if_neg (show ¬ 270 < (frameLen s.flags b).toNat by omega)

end Runs

section Selection
variable {cfg : Config} {s : State} {b : Byte}

theorem selectArm_of_full (hidle : ¬ (s.cursor = 0 ∧ b ≠ syncByte)) (hc : cfg.cap ≤ s.cursor) :
    selectArm cfg s b = .guard b := by
  rw [selectArm, if_neg hidle, if_pos hc]

theorem unrepresentable_iff :
    unrepresentable cfg b s = true ↔ s.cursor = 3 ∧ cfg.cap < (frameLen s.flags b).toNat := by
  simp [unrepresentable]

theorem selectArm_of_unrepresentable (hc : s.cursor < cfg.cap) (hu : unrepresentable cfg b s = true) :
    selectArm cfg s b = .abort b := by
  have h3 := (unrepresentable_iff.mp hu).1
  rw [selectArm, if_neg (by omega), if_neg (by omega), if_pos hu]

/-- A byte that completes a frame, in any state: DECODE of what is staged after the store selects the arm. -/
theorem selectArm_of_completing (hidle : ¬ (s.cursor = 0 ∧ b ≠ syncByte)) (hc : s.cursor < cfg.cap)
    (hu : unrepresentable cfg b s = false) (hf : frameComplete (storing cfg b s) = true) :
    selectArm cfg s b =
      if (decodePacket cfg (staged (storing cfg b s))).isSome then .completeEmit b else .completeFail b := by
  simp only [selectArm, if_neg hidle, if_neg (Nat.not_le.mpr hc), hu, hf]
  cases decodePacket cfg (staged (storing cfg b s)) <;> rfl

end Selection

/-- Everything the selection can answer, beside what STEP does there. -/
theorem selectArm_cases (cfg : Config) (s : State) (b : Byte) :
    (s.cursor = 0 ∧ b ≠ syncByte ∧ selectArm cfg s b = .drop b ∧ stepByte cfg b s = (s, none)) ∨
    (cfg.cap ≤ s.cursor ∧ selectArm cfg s b = .guard b ∧ stepByte cfg b s = (toIdle s, none)) ∨
    (cfg.cap < (frameLen s.flags b).toNat ∧ selectArm cfg s b = .abort b ∧
      stepByte cfg b s = (toIdle (storeByte cfg offLen b s), none)) ∨
    (∃ p, decodePacket cfg (staged (storing cfg b s)) = some p ∧ selectArm cfg s b = .completeEmit b ∧
      stepByte cfg b s = (toIdle (storing cfg b s), some p)) ∨
    (decodePacket cfg (staged (storing cfg b s)) = none ∧ selectArm cfg s b = .completeFail b ∧
      stepByte cfg b s = (toIdle (storing cfg b s), none)) ∨
    (s.cursor < cfg.cap ∧ frameComplete (storing cfg b s) = false ∧ stepByte cfg b s = (storing cfg b s, none) ∧
      ((s.cursor = 0 ∧ b = syncByte ∧ selectArm cfg s b = .sync) ∨
        (s.cursor = 2 ∧ selectArm cfg s b = .stageFlags b) ∨
        (s.cursor = 3 ∧ selectArm cfg s b = .stageLen b) ∨
        (s.cursor ≠ 2 ∧ s.cursor ≠ 3 ∧ selectArm cfg s b = .stage b))) := by
  rcases stepByte_cases cfg b s with ⟨h0, hb, hst⟩ | ⟨hc, hidle, hst⟩ | ⟨h3, hc, hlong, hst⟩ |
    ⟨hc, hidle, hu, hf, hst⟩ | ⟨hc, hidle, hu, hf, hst⟩
  · exact .inl ⟨h0, hb, selectArm_of_stray h0 hb, hst⟩
  · exact .inr (.inl ⟨hc, selectArm_of_full hidle hc, hst⟩)
  · have harm := selectArm_of_unrepresentable (by omega) (unrepresentable_iff.mpr ⟨h3, hlong⟩)
    exact .inr (.inr (.inl ⟨hlong, harm, hst⟩))
  · have harm := selectArm_of_completing hidle hc hu hf
    cases hdec : decodePacket cfg (staged (storing cfg b s)) with
    | some p =>
      rw [hdec] at harm hst
      exact .inr (.inr (.inr (.inl ⟨p, rfl, harm, hst⟩)))
    | none =>
      rw [hdec] at harm hst
      exact .inr (.inr (.inr (.inr (.inl ⟨rfl, harm, hst⟩))))
  · have harm := selectArm_of_incomplete hidle hc hu hf
    refine .inr (.inr (.inr (.inr (.inr ⟨hc, hf, hst, ?_⟩))))
    by_cases h0 : s.cursor = 0
    · rw [if_pos h0] at harm
      exact .inl ⟨h0, by_contra fun hb => hidle ⟨h0, hb⟩, harm⟩
    rw [if_neg h0] at harm
    by_cases h2 : s.cursor = 2
    · exact .inr (.inl ⟨h2, harm.trans (if_pos h2)⟩)
    rw [if_neg h2] at harm
    by_cases h3 : s.cursor = 3
    · exact .inr (.inr (.inl ⟨h3, harm.trans (if_pos h3)⟩))
    · exact .inr (.inr (.inr ⟨h2, h3, harm.trans (if_neg h3)⟩))

/-- Settles O5: every arm but SYNC carries its byte, and SYNC is selected for the sync byte alone. -/
theorem selectedArmEncodesItsByte : Obligations.SelectedArmEncodesItsByte := by
  intro s b
  rcases selectArm_cases Config.hw s b with ⟨-, hb, harm, -⟩ | ⟨-, harm, -⟩ | ⟨-, harm, -⟩ | ⟨-, -, harm, -⟩ |
    ⟨-, harm, -⟩ | ⟨-, -, -, ⟨-, rfl, harm⟩ | ⟨-, harm⟩ | ⟨-, harm⟩ | ⟨-, -, harm⟩⟩
  · rw [harm]
    exact ⟨bne_iff_ne.mpr hb, rfl⟩
  all_goals
    rw [harm]
    exact ⟨rfl, rfl⟩

section StoringArms
variable {s : State} {b : Byte}

/-! Each storing arm, at its own offset, is the storing part of STEP. -/

theorem exec_sync_of_cursor (h0 : s.cursor = 0) : exec .sync s = finish (storing Config.hw syncByte s, none) := by
  rw [exec_sync, storing_of_ne (by simp [h0]) (by omega) (by omega), h0]
  rfl

theorem exec_stageFlags_of_cursor (h2 : s.cursor = 2) :
    exec (.stageFlags b) s = finish (storing Config.hw b s, none) := by
  rw [exec_stageFlags, storing_of_lt b (by simp [h2]), if_pos h2, if_neg (by omega), h2]
  rfl

theorem exec_stageLen_of_cursor (h3 : s.cursor = 3) :
    exec (.stageLen b) s = finish (storing Config.hw b s, none) := by
  rw [exec_stageLen, storing_of_lt b (by simp [h3]), if_pos h3, if_neg (by omega), h3]
  rfl

end StoringArms

/-- In every state the selected arm ends as STEP does. -/
theorem exec_selectArm (s : State) (b : Byte) :
    exec (selectArm Config.hw s b) s = finish (stepByte Config.hw b s) := by
  rcases selectArm_cases Config.hw s b with ⟨-, -, harm, hst⟩ | ⟨-, harm, hst⟩ | ⟨-, harm, hst⟩ |
    ⟨p, hdec, harm, hst⟩ | ⟨-, harm, hst⟩ |
    ⟨hc, hf, hst, ⟨h0, rfl, harm⟩ | ⟨h2, harm⟩ | ⟨h3, harm⟩ | ⟨h2, h3, harm⟩⟩
  · rw [harm, hst]; rfl
  · rw [harm, hst]; rfl
  · rw [harm, hst]; rfl
  · rw [harm, hst, exec_completeEmit, hdec]
  · rw [harm, hst, exec_completeFail]
  · rw [harm, hst, exec_sync_of_cursor h0]
  · rw [harm, hst, exec_stageFlags_of_cursor h2]
  · rw [harm, hst, exec_stageLen_of_cursor h3]
  · rw [harm, hst, exec_stage hc h2 h3, completing_of_incomplete hf]

/-- Settles O42. -/
theorem stepIsItsSelectedArm : Obligations.StepIsItsSelectedArm := by
  intro s b
  rw [exec_selectArm, exec_step_eq_finish]

/-- Settles O36: at offset 3 nothing completes and nothing aborts, so the offset selects STAGE.LEN. -/
theorem stageLenFixesLength : Obligations.StageLenFixesLength := by
  intro s b h3
  constructor
  · rw [selectArm_of_incomplete (by omega) (by simp [h3]) (unrepresentable_eq_false b s (by decide))
      (frameComplete_storing_of_length h3), if_neg (by omega), if_neg (by simp [h3]), if_pos h3]
  · rw [exec_stageLen, frameLen_eq_ofNat]

/-- Settles O37: the premise is the fit test of R96. -/
theorem abortAbandonsFrame : Obligations.AbortAbandonsFrame := by
  refine ⟨fun cfg s b h3 hcap hlong => ?_, fun s b => exec_abort s b⟩
  have hc : s.cursor < cfg.cap := by omega
  have hu : unrepresentable cfg b s = true := unrepresentable_iff.mpr ⟨h3, by rwa [frameLen_toNat_mod]⟩
  refine ⟨selectArm_of_unrepresentable hc hu, ?_⟩
  rw [stepByte_abort cfg b s hc hu, storeByte, if_pos hcap]
  rfl

/-- Settles O39: as for COMPLETE.EMIT, with DECODE's other answer. -/
theorem completeFailsSilently : Obligations.CompleteFailsSilently := by
  rintro s b hi ⟨e, he, hlen⟩ hnone
  have h4 := (bounds_of_known hi he).1
  have hc : s.cursor < Config.hw.cap := hi.inside
  have hf := (frameComplete_storing Config.hw b s).mpr ⟨by omega, e, he, hlen⟩
  constructor
  · rw [selectArm_of_complete (by omega) hc (unrepresentable_of_ne (by omega)) hf hi.canonical, hnone]
    rfl
  · rw [exec_completeFail, storing_of_ne hc (by omega) (by omega)]
    rfl

/-- Settles O40: the capacity test precedes every other test of a staging decoder. -/
theorem guardReturnsToIdle : Obligations.GuardReturnsToIdle := fun s b hc =>
  ⟨selectArm_of_full (by omega) hc, exec_guard s b⟩

section Frame
variable {cfg : Config} {s : State} {b : Byte}

/-- The completion test changes CURSOR and EXPECTED at most. -/
theorem completing_frame : (completing cfg s).1.inbox = s.inbox ∧ (completing cfg s).1.flags = s.flags ∧
    (completing cfg s).1.buf = s.buf := by
  unfold completing
  split <;> exact ⟨rfl, rfl, rfl⟩

theorem storing_frame : (storing cfg b s).inbox = s.inbox ∧ (s.cursor ≠ 2 → (storing cfg b s).flags = s.flags) ∧
    ∀ a, a ≠ s.cursor → (storing cfg b s).buf.read a = s.buf.read a :=
  ⟨storing_inbox cfg b s, fun h => if_neg h, fun _ ha => storeByte_read_ne cfg b s ha⟩

/-- STAGE, in any state, writes no cell but the one at CURSOR and never FLAGS. -/
theorem exec_stage_frame {t : State} (h : exec (.stage b) s = .next t) :
    t.inbox = s.inbox ∧ t.flags = s.flags ∧ ∀ a, a ≠ s.cursor → t.buf.read a = s.buf.read a := by
  change execStage b s = _ at h
  unfold execStage at h
  split at h
  · obtain rfl := Host.Outcome.next.inj h
    obtain ⟨hin, hfl, hbuf⟩ :=
      completing_frame (cfg := Config.hw) (s := { storeByte Config.hw s.cursor b s with cursor := s.cursor + 1 })
    refine ⟨hin.trans (by simp), hfl.trans (by simp), fun a ha => ?_⟩
    rw [deliver_buf, hbuf]
    exact storeByte_read_ne Config.hw b s ha
  · obtain rfl := Host.Outcome.next.inj h
    exact ⟨rfl, rfl, fun _ _ => rfl⟩

end Frame

/-- Settles O41: each arm's run is one store at the offset the statement names, or none. -/
theorem armFrames : Obligations.ArmFrames := by
  intro i s t b h
  refine ⟨?_, ?_, ?_, ?_, ?_, ?_⟩
  · rintro (rfl | rfl | rfl) <;> obtain rfl := Host.Outcome.next.inj h <;> exact ⟨rfl, rfl, fun _ => rfl⟩
  · rintro rfl
    obtain rfl := Host.Outcome.next.inj h
    exact ⟨rfl, rfl, rfl, fun a ha => Memory.read_write_ne _ _ ha⟩
  · rintro rfl
    exact exec_stage_frame h
  · rintro rfl
    obtain rfl := Host.Outcome.next.inj h
    exact ⟨rfl, rfl, fun a ha => Memory.read_write_ne _ _ ha⟩
  · rintro (rfl | rfl)
    · rw [exec_stageLen] at h
      obtain rfl := Host.Outcome.next.inj h
      exact ⟨rfl, rfl, fun a ha => Memory.read_write_ne _ _ ha⟩
    · obtain rfl := Host.Outcome.next.inj h
      exact ⟨rfl, rfl, fun a ha => Memory.read_write_ne _ _ ha⟩
  · rintro (rfl | rfl | rfl) <;> obtain rfl := Host.Outcome.next.inj h
    · exact storing_frame
    · exact storing_frame
    · obtain ⟨hin, -, hfl, hbuf, -⟩ := stepByte_frame Config.hw b s
      exact ⟨hin, hfl, hbuf⟩

section Table
variable {cfg : Config} {s : State} {b : Byte}

/-- Under the invariant no frame completes before its fifth byte. -/
theorem frameComplete_storing_of_header (hi : Inv cfg s) (h4 : s.cursor < 4) :
    frameComplete (storing cfg b s) = false :=
  frameComplete_storing_of_unknown (hi.unknown (by omega))

/-- Under the invariant EXPECTED and CURSOR compare alike as numbers and in 9 bits. -/
theorem frameComplete_storing_iff (hi : Inv cfg s) (h4 : 4 ≤ s.cursor) :
    frameComplete (storing cfg b s) = true ↔ s.expected = some (BitVec.ofNat 9 (s.cursor + 1)) := by
  have hsmall := hi.small
  have hlen : (BitVec.ofNat 9 (s.cursor + 1)).toNat = s.cursor + 1 := by
    rw [BitVec.toNat_ofNat]
    omega
  rw [frameComplete_storing]
  constructor
  · rintro ⟨-, e, he, htoNat⟩
    rw [he, BitVec.eq_of_toNat_eq (htoNat.trans hlen.symm)]
  · intro he
    exact ⟨by omega, _, he, hlen⟩

end Table

/-- Settles O43: the first three tests of STEP never divert a reachable state on this hardware, and the storing part
is read off at each offset. -/
theorem stepFollowsTransitionTable : Obligations.StepFollowsTransitionTable := by
  intro s b hi
  have hc : s.cursor < Config.hw.cap := hi.inside
  have hu := unrepresentable_eq_false (cfg := Config.hw) b s (by decide)
  rw [exec_step_eq_finish]
  by_cases h0 : s.cursor = 0
  · rw [if_pos h0]
    by_cases hb : b = 0xFF#8
    · rw [if_pos hb, stepByte_of_incomplete (fun h => h.2 hb) hc hu (frameComplete_storing_of_header hi (by omega)),
        storing_of_ne hc (by omega) (by omega), h0]
      rfl
    · rw [if_neg hb, stepByte_drop _ b s h0 hb]
      rfl
  have hidle : ¬ (s.cursor = 0 ∧ b ≠ syncByte) := fun h => h0 h.1
  rw [if_neg h0]
  by_cases h4 : s.cursor < 4
  · rw [stepByte_of_incomplete hidle hc hu (frameComplete_storing_of_header hi h4), storing_of_lt b hc]
    obtain h1 | h2 | h3 : s.cursor = 1 ∨ s.cursor = 2 ∨ s.cursor = 3 := by omega
    · simp [h1, finish, deliver]
    · simp [h2, finish, deliver]
    · simp [h3, finish, deliver, frameLen_eq_ofNat]
  rw [if_neg (by omega), if_neg (by omega), if_neg (by omega), stepByte_store _ b s hidle hc hu]
  by_cases he : s.expected = some (BitVec.ofNat 9 (s.cursor + 1))
  · rw [if_pos he, completing_of_complete ((frameComplete_storing_iff hi (by omega)).mpr he),
      staged_storing b hi.canonical hc, storing_of_ne hc (by omega) (by omega)]
    rfl
  · have hf := Bool.eq_false_iff.mpr (mt (frameComplete_storing_iff (b := b) hi (by omega)).mp he)
    rw [if_neg he, completing_of_incomplete hf, storing_of_ne hc (by omega) (by omega)]
    rfl

end Sys2Proof.Proofs.StepArms
end

section
/-! PROOFS. The checksum (spec/40_packet_helpers.md R71): its laws, and the statement settled from them. -/

namespace Sys2Proof.Proofs.Checksum

open Sys2Proof.Machine Sys2Proof.Safety Sys2Proof.Proofs.FrameDecode

@[simp] theorem exec_xor8 (bytes : List Byte) (s : State) :
    exec (.xor8 bytes) s = .next { s with result := .byte (xor8 bytes) } := rfl

theorem xor8_singleton (b : Byte) : xor8 [b] = b := by
  rw [xor8_cons, xor8_nil, BitVec.xor_zero]

theorem xor8_concat (bytes : List Byte) (b : Byte) : xor8 (bytes ++ [b]) = xor8 bytes ^^^ b := by
  rw [xor8_append, xor8_singleton]

theorem xor8_perm {a b : List Byte} (h : a.Perm b) : xor8 a = xor8 b := by
  induction h with
  | nil => rfl
  | cons x _ ih => rw [xor8_cons, xor8_cons, ih]
  | swap x y l =>
    rw [xor8_cons, xor8_cons, xor8_cons, xor8_cons, ← BitVec.xor_assoc, ← BitVec.xor_assoc, BitVec.xor_comm y x]
  | trans _ _ ih₁ ih₂ => rw [ih₁, ih₂]

/-- A byte met twice cancels: brought together, the two give zero. -/
theorem xor8_cancel (a c d : List Byte) (b : Byte) : xor8 (a ++ [b] ++ c ++ [b] ++ d) = xor8 (a ++ c ++ d) := by
  have hperm : (a ++ [b] ++ c ++ [b] ++ d).Perm ([b, b] ++ (a ++ c ++ d)) := by
    rw [List.perm_iff_count]
    intro x
    simp only [List.count_append, List.count_cons, List.count_nil]
    omega
  have htwice : xor8 [b, b] = 0x00#8 := by rw [xor8_cons, xor8_singleton, BitVec.xor_self]
  rw [xor8_perm hperm, xor8_append, htwice, BitVec.zero_xor]

/-- Changing bits of one byte changes exactly those bits. -/
theorem xor8_change (a c : List Byte) (b m : Byte) : xor8 (a ++ [b ^^^ m] ++ c) = xor8 (a ++ [b] ++ c) ^^^ m := by
  simp only [xor8_append, xor8_singleton]
  ac_rfl

/-- One inverted bit in a sequence is that bit inverted in its checksum. -/
theorem xor8_flipBit {bytes : List Byte} {i : Nat} (h : i < bytes.length) (j : Nat) :
    xor8 (flipBit bytes i j) = xor8 bytes ^^^ (0x01#8 <<< j) := by
  have hsplit : bytes = bytes.take i ++ [bytes[i]] ++ bytes.drop (i + 1) := by simp
  have hflip : flipBit bytes i j = bytes.take i ++ [bytes[i] ^^^ (0x01#8 <<< j)] ++ bytes.drop (i + 1) := by
    rw [flipBit, List.modify_eq_take_cons_drop h]
    simp
  rw [hflip, xor8_change, ← hsplit]

/-- Settles O11: the running exclusive-or is a sum in a commutative group where every byte is its own inverse. -/
theorem xor8IsRunningExclusiveOr : Obligations.Xor8IsRunningExclusiveOr :=
  ⟨fun bytes s => exec_xor8 bytes s, xor8_nil, xor8_concat, fun _ _ => xor8_perm, xor8_cancel,
    fun bytes => (xor8_concat_eq_zero_iff bytes _).mpr rfl, xor8_change, rfl⟩

end Sys2Proof.Proofs.Checksum
end

section
/-! PROOFS. DECODE on whole frames (spec/30_encoding.md R62; spec/42_frame_decode.md sections 1 to 3): the frame
kinds as DECODE of their wire bytes, the packets they yield, what DECODE does not test, and the statements settled
from them. -/

namespace Sys2Proof.Proofs.FrameKinds

open Sys2Proof.Machine Sys2Proof.Safety Sys2Proof.Proofs.PacketHelpers Sys2Proof.Proofs.FrameDecode
  Sys2Proof.Proofs.Checksum

/-- A frame kind runs as DECODE of its wire bytes (R62). -/
theorem exec_frame {i : Instr} {bytes : List Byte} (hframe : i.isFrame = true) (henc : encode i = some bytes)
    (s : State) : exec i s = exec (.decode bytes) s := by
  cases i with
  | frameCmd | frameCmdCk | frameAck | frameAckCk =>
    obtain rfl := Option.some.inj henc
    rfl
  | _ => cases hframe

/-- Offered wire bytes run as DECODE of them, whichever row they are fetched as. -/
theorem exec_frameInstr (bytes : List Byte) (s : State) : exec (frameInstr bytes) s = exec (.decode bytes) s := by
  unfold frameInstr
  split
  next i hdec =>
    obtain ⟨hframe, -, used, henc, rfl⟩ := WireEncoding.frameDecodingIsExact i bytes [] hdec
    rw [exec_frame hframe henc, List.append_nil]
  · rfl
  · rfl

/-- Settles O24: both directions of the encoding put the two rows on the same bytes. -/
theorem frameKindIsDecodeOfItsBytes : Obligations.FrameKindIsDecodeOfItsBytes :=
  ⟨fun _ _ s hframe henc => exec_frame hframe henc s, fun bytes s => exec_frameInstr bytes s⟩

/-- The checksum byte is the last byte of its frame. -/
theorem wireFrame_concat (version f : Byte) (vendor raw : Half) (p : List Byte) (k : Byte) :
    wireFrame version f vendor raw p [k] = wireFrame version f vendor raw p [] ++ [k] := by
  simp [wireFrame]

section Packets

theorem rawOf_false (c : BitVec 15) : rawOf false c = c.setWidth 16 := by
  simp [rawOf_eq_or]

theorem rawOf_true (c : BitVec 15) : rawOf true c = c.setWidth 16 ||| 0x8000#16 := by
  rw [rawOf_eq_or, if_pos rfl, BitVec.or_comm]

/-- The packet of a frame by its operands. -/
theorem mkPacket_rawOf (vendor : Half) (ack : Bool) (c : BitVec 15) (f : Byte) (p : List Byte) :
    mkPacket vendor (rawOf ack c) f p =
      { vendorId := vendor, rawCommandId := rawOf ack c, command := c, ack := ack, flags := f, payload := p,
        status := statusOf ack p } := by
  simp [mkPacket]

variable (version : Byte) (r : BitVec 7) (vendor raw : Half) {p : List Byte} (k : Byte)

/-- A frame without the checksum flag always decodes. -/
theorem decodePacket_plain (hp : p.length ≤ 255) :
    decodePacket Config.hw (wireFrame version (flagsByte r false) vendor raw p []) =
      some (mkPacket vendor raw (flagsByte r false) p) := by
  rw [decodePacket_wire _ _ _ _ _ hp (lengthRefused_hw _) (by simp), ckPresent_flagsByte, Bool.false_and,
    if_neg Bool.false_ne_true]

/-- A frame with the checksum flag decodes exactly when its checksum byte is right. -/
theorem decodePacket_checksummed (hp : p.length ≤ 255) :
    decodePacket Config.hw (wireFrame version (flagsByte r true) vendor raw p [k]) =
      if xor8 (wireFrame version (flagsByte r true) vendor raw p []) = k then
        some (mkPacket vendor raw (flagsByte r true) p) else none := by
  have hsum : xor8 (wireFrame version (flagsByte r true) vendor raw p [k]) = 0x00#8 ↔
      xor8 (wireFrame version (flagsByte r true) vendor raw p []) = k := by
    rw [wireFrame_concat, xor8_concat_eq_zero_iff]
  rw [decodePacket_wire _ _ _ _ _ hp (lengthRefused_hw _) (by simp), ckPresent_flagsByte, Bool.true_and]
  by_cases h : xor8 (wireFrame version (flagsByte r true) vendor raw p []) = k
  · rw [if_pos h, hsum.mpr h, if_neg (by simp)]
  · rw [if_neg h, if_pos (bne_iff_ne.mpr (mt hsum.mp h))]

end Packets

/-- Settles O25: DECODE of the kind's bytes finds no checksum flag. -/
theorem plainFramesYieldTheirPacket : Obligations.PlainFramesYieldTheirPacket := by
  intro v r vendor c p s hp
  constructor
  · rw [exec_frame rfl rfl, exec_decode, decodePacket_plain v r vendor _ hp, mkPacket_rawOf, rawOf_false]
    rfl
  · rw [exec_frame rfl rfl, exec_decode, decodePacket_plain v r vendor _ hp, mkPacket_rawOf, rawOf_true]
    rfl

/-- Settles O26: DECODE of the kind's bytes tests the checksum byte against the bytes before it. -/
theorem checksummedFramesYieldTheirPacket : Obligations.ChecksummedFramesYieldTheirPacket := by
  intro v r vendor c p k s hp
  constructor
  · refine ⟨_, (exec_frame rfl rfl s).trans (exec_decode _ s), ?_⟩
    rw [decodePacket_checksummed v r vendor _ k hp, mkPacket_rawOf, rawOf_false]
    rfl
  · refine ⟨_, (exec_frame rfl rfl s).trans (exec_decode _ s), ?_⟩
    rw [decodePacket_checksummed v r vendor _ k hp, mkPacket_rawOf, rawOf_true]
    rfl

section Unchecked
variable {cfg : Config} {b0 b1 b0' b1' : Byte}

/-- The sync and version bytes enter DECODE only through the checksum, and so only where flags bit 0 is set. -/
theorem decodePacket_head_congr {rest : List Byte}
    (h : ∀ f, rest.head? = some f → ckPresent f = true → b0 ^^^ b1 = b0' ^^^ b1') :
    decodePacket cfg (b0 :: b1 :: rest) = decodePacket cfg (b0' :: b1' :: rest) := by
  rcases rest with _ | ⟨f, _ | ⟨n, _ | ⟨v1, _ | ⟨v0, _ | ⟨c1, _ | ⟨c0, body⟩⟩⟩⟩⟩⟩
  case cons.cons.cons.cons.cons.cons =>
    rw [decodePacket_cons, decodePacket_cons]
    cases hck : ckPresent f with
    | false => simp
    | true =>
      rw [xor8_cons b0, xor8_cons b1, ← BitVec.xor_assoc, h f rfl hck, BitVec.xor_assoc, ← xor8_cons, ← xor8_cons]
  all_goals rfl

end Unchecked

/-- Settles O23: DECODE's one use of the first two bytes is the checksum, and its one use of the value 255 is the
switch. -/
theorem decodeIgnoresSyncVersionAndRange : Obligations.DecodeIgnoresSyncVersionAndRange := by
  refine ⟨fun cfg b0 b1 b0' b1' rest h => ?_, fun cfg b0 b1 b0' b1' f rest hf => ?_,
    fun b0 b1 f v1 v0 c1 c0 body hf hbody => ?_, fun cap b0 b1 f v1 v0 c1 c0 body => ?_⟩
  · exact decodePacket_head_congr fun _ _ _ => h
  · refine decodePacket_head_congr fun f' hf' hck => ?_
    rw [← Option.some.inj hf', ckPresent, hf] at hck
    cases hck
  · have heven : f.toNat % 2 = 0 := by rw [← ckPresent_toNat, ckPresent, hf]; rfl
    refine ⟨_, decodePacket_eq_some_iff.mpr ⟨?_, by rw [hf]; nofun, rfl⟩, List.length_take_of_le hbody⟩
    rw [heven]
    exact hbody
  · have hrefused : lengthRefused { cap := cap, len255Accept := false } 0xFF#8 = true := rfl
    rw [decodePacket_cons, if_pos hrefused]

end Sys2Proof.Proofs.FrameKinds
end

section
/-! PROOFS. Encoder and DECODE together (spec/43_frame_encoder.md section 2; spec/42_frame_decode.md section 4): the
round trip, the length an encoded frame declares, single-bit corruption, and the statements settled from them. -/

namespace Sys2Proof.Proofs.RoundTrip

open Sys2Proof.Machine Sys2Proof.Safety Sys2Proof.Proofs.PacketHelpers Sys2Proof.Proofs.FrameDecode
  Sys2Proof.Proofs.FrameEncoder Sys2Proof.Proofs.Checksum Sys2Proof.Proofs.FrameKinds

/-- The length byte holds every payload length a frame can have. -/
theorem lengthByte_toNat {p : List Byte} (h : p.length ≤ 255) : (BitVec.ofNat 8 p.length).toNat = p.length := by
  rw [BitVec.toNat_ofNat]
  omega

section Encoded
variable {v c : Half} {p : List Byte} {f : Byte} {frame : List Byte}

/-- An encoded frame is the layout with a tail as long as flags bit 0 says. -/
theorem encodeFrame_layout (h : encodeFrame v c p f = .ok frame) :
    p.length ≤ 254 ∧ ∃ tail : List Byte, tail.length = (if ckPresent f then 1 else 0) ∧
      frame = wireFrame versionByte f v c p tail ∧ (ckPresent f = true → xor8 frame = 0x00#8) := by
  have hp := encodeFrame_ok_length h
  rw [encodeFrame_ok v c f hp, Except.ok.injEq] at h
  subst h
  refine ⟨hp, _, by split <;> rfl, rfl, fun hck => ?_⟩
  rw [if_pos hck, wireFrame_concat, xor8_concat_eq_zero_iff]

/-- DECODE of an encoded frame, at any configuration: the encoder never writes the length byte 255. -/
theorem decodePacket_encodeFrame (cfg : Config) (h : encodeFrame v c p f = .ok frame) :
    decodePacket cfg frame = some (mkPacket v c f p) := by
  obtain ⟨hp, tail, htail, rfl, hsum⟩ := encodeFrame_layout h
  have hlen : lengthRefused cfg (BitVec.ofNat 8 p.length) = false := by
    have hne : BitVec.ofNat 8 p.length ≠ 0xFF#8 := fun heq => by
      have h255 : p.length = 255 := (lengthByte_toNat (by omega)).symm.trans (congrArg BitVec.toNat heq)
      omega
    rw [lengthRefused, beq_false_of_ne hne, Bool.and_false]
  rw [decodePacket_wire cfg _ f v c (by omega) hlen htail]
  cases hck : ckPresent f with
  | false => rfl
  | true => rw [hsum hck]; rfl

theorem encodeFrame_length (h : encodeFrame v c p f = .ok frame) : frame.length = p.length + 8 + f.toNat % 2 := by
  obtain ⟨-, tail, htail, rfl, -⟩ := encodeFrame_layout h
  rw [wireFrame_length, htail, ckPresent_toNat]

end Encoded

/-- Settles O29: the layout puts the flags and length bytes at offsets 2 and 3. -/
theorem encodedFrameDeclaresItsLength : Obligations.EncodedFrameDeclaresItsLength := by
  intro v c p f frame h
  have hlen := encodeFrame_length h
  obtain ⟨hp, tail, htail, rfl, hsum⟩ := encodeFrame_layout h
  refine ⟨hlen, by omega, by omega, ⟨BitVec.ofNat 8 p.length, ?_, ?_, ?_⟩, hsum⟩
  · rw [wireFrame_eq]; rfl
  · rw [wireFrame_eq]; rfl
  · rw [hlen, frameLen_toNat_mod, lengthByte_toNat (by omega)]

/-- Settles O30: DECODE recovers the packet, and the packet shows all four operands. -/
theorem decodeInvertsEncode : Obligations.DecodeInvertsEncode := by
  refine ⟨fun v c p f s s' hp => ?_, fun v c v' c' p p' f f' frame h h' => ?_⟩
  · have henc := encodeFrame_ok v c f hp
    refine ⟨_, by rw [exec_encode, henc], ?_⟩
    rw [exec_decode, decodePacket_encodeFrame Config.hw henc]
  · have hpacket : mkPacket v c f p = mkPacket v' c' f' p' := Option.some.inj
      ((decodePacket_encodeFrame Config.hw h).symm.trans (decodePacket_encodeFrame Config.hw h'))
    exact ⟨congrArg Packet.vendorId hpacket, congrArg Packet.rawCommandId hpacket,
      congrArg Packet.payload hpacket, congrArg Packet.flags hpacket⟩

section Corruption

theorem exists_header {frame : List Byte} (h : 8 ≤ frame.length) : ∃ b0 b1 f n v1 v0 c1 c0, ∃ body : List Byte,
    frame = b0 :: b1 :: f :: n :: v1 :: v0 :: c1 :: c0 :: body :=
  match frame, h with
  | b0 :: b1 :: f :: n :: v1 :: v0 :: c1 :: c0 :: body, _ => ⟨b0, b1, f, n, v1, v0, c1, c0, body, rfl⟩

/-- Whatever else is wrong with it, a sequence with the checksum flag and a wrong checksum is not decoded. -/
theorem decodePacket_eq_none_of_xor8 {frame : List Byte} {f : Byte} (h2 : frame[2]? = some f)
    (hf : f.getLsbD 0 = true) (hsum : xor8 frame ≠ 0x00#8) : decodePacket Config.hw frame = none := by
  by_cases hlen : frame.length < 8
  · exact decodePacket_short _ hlen
  · obtain ⟨b0, b1, f', n, v1, v0, c1, c0, body, rfl⟩ := exists_header (Nat.not_lt.mp hlen)
    obtain rfl : f' = f := Option.some.inj h2
    exact decodePacket_eq_none_of_checksum hf hsum

theorem bit_ne_zero {j : Nat} (hj : j < 8) : 0x01#8 <<< j ≠ 0x00#8 := by
  revert j; decide

theorem getLsbD_zero_xor_bit (f : Byte) {j : Nat} (hj : j ≠ 0) :
    (f ^^^ (0x01#8 <<< j)).getLsbD 0 = f.getLsbD 0 := by
  simp [Nat.pos_of_ne_zero hj]

/-- Without the checksum flag nothing after the payload matters (R126). -/
theorem decodePacket_unflagged (version : Byte) {f : Byte} (v c : Half) {p : List Byte} (tail : List Byte)
    (hp : p.length ≤ 255) (hf : f.getLsbD 0 = false) :
    decodePacket Config.hw (wireFrame version f v c p tail) = some (mkPacket v c f p) := by
  have hlen : p.length + f.toNat % 2 ≤ (p ++ tail).length := by
    rw [← ckPresent_toNat, ckPresent, hf, List.length_append, if_neg Bool.false_ne_true]
    omega
  rw [wireFrame_eq, decodePacket_eq_some_iff, be16Get_put, be16Get_put, lengthByte_toNat hp, List.take_left]
  exact ⟨hlen, by rw [hf]; nofun, rfl⟩

/-- Any other inverted bit leaves the checksum flag set. -/
theorem flipBit_keeps_flag {frame : List Byte} {f : Byte} {i j : Nat} (h2 : frame[2]? = some f)
    (hf : f.getLsbD 0 = true) (hne : ¬ (i = 2 ∧ j = 0)) :
    ∃ f', (flipBit frame i j)[2]? = some f' ∧ f'.getLsbD 0 = true := by
  by_cases hi : i = 2
  · subst hi
    refine ⟨f ^^^ (0x01#8 <<< j), ?_, ?_⟩
    · rw [flipBit, List.getElem?_modify_eq, h2]; rfl
    · rw [getLsbD_zero_xor_bit f fun h0 => hne ⟨rfl, h0⟩, hf]
  · exact ⟨f, by rw [flipBit, List.getElem?_modify_ne _ _ hi, h2], hf⟩

end Corruption

/-- Settles O31: an inverted bit makes the exclusive-or of the frame non-zero, which DECODE tests as long as flags
bit 0 stands. -/
theorem singleBitCorruption : Obligations.SingleBitCorruption := by
  intro v c p f frame i j s hf henc hi hj
  obtain ⟨hp, tail, -, rfl, hsum⟩ := encodeFrame_layout henc
  constructor
  · rintro ⟨rfl, rfl⟩
    have hflip : flipBit (wireFrame versionByte f v c p tail) 2 0 =
        wireFrame versionByte (f ^^^ 0x01#8) v c p tail := by
      rw [wireFrame_eq, wireFrame_eq]; rfl
    rw [exec_decode, hflip, decodePacket_unflagged _ v c tail (by omega) (by simp [hf])]
  · intro hne
    have hwrong : xor8 (flipBit (wireFrame versionByte f v c p tail) i j) ≠ 0x00#8 := by
      rw [xor8_flipBit hi, hsum hf, BitVec.zero_xor]
      exact bit_ne_zero hj
    have h2 : (wireFrame versionByte f v c p tail)[2]? = some f := by rw [wireFrame_eq]; rfl
    obtain ⟨f', h2', hf'⟩ := flipBit_keeps_flag h2 hf hne
    rw [exec_decode, decodePacket_eq_none_of_xor8 h2' hf' hwrong]

end Sys2Proof.Proofs.RoundTrip
end

section
/-! PROOFS. The machine around `exec` (spec/10_state.md R15, R16; spec/70_reset_and_hazards.md R184): what serving
a request comes to, what the results carry, which operations are pure, several codecs side by side, and the
statements settled from them. -/

namespace Sys2Proof.Proofs.Requests

open Sys2Proof.Machine Sys2Proof.Safety Sys2Proof.Proofs.PacketHelpers Sys2Proof.Proofs.DecoderFsm
  Sys2Proof.Proofs.FrameDecode Sys2Proof.Proofs.Exceptions Sys2Proof.Proofs.StepArms Sys2Proof.Proofs.FrameKinds
  Sys2Proof.Proofs.RoundTrip

section Serving

/-- Which instruction a request is does not depend on what else is pending. -/
theorem fetchInstr_inbox (s : State) (l : List Request) (r : Request) :
    fetchInstr { s with inbox := l } r = fetchInstr s r := by
  cases r with
  | byte b => exact selectArm_inbox Config.hw s l b
  | frame | call => rfl

theorem step_of_pending {s : State} {r : Request} {rest : List Request} (h : s.inbox = r :: rest) :
    step s = exec (fetchInstr s r) { s with inbox := rest } := by
  rw [step, h]

/-- All that serving a request can come to, the same for every state: a value handed out, one STEP, a FEED or a
reset. -/
theorem exec_fetchInstr_cases (r : Request) :
    (∃ res, ∀ s, exec (fetchInstr s r) s = .next (deliver res s)) ∨
    (∃ b, ∀ s, exec (fetchInstr s r) s = exec (.step b) s) ∨
    (∃ chunk, ∀ s, exec (fetchInstr s r) s = exec (.feed chunk) s) ∨
    (∀ s, exec (fetchInstr s r) s = exec .srst s) := by
  cases r with
  | byte b => exact .inr (.inl ⟨b, fun s => (stepIsItsSelectedArm s b).symm⟩)
  | frame bytes => exact .inl ⟨_, fun s => (exec_frameInstr bytes s).trans rfl⟩
  | call op =>
    cases op with
    | step b => exact .inr (.inl ⟨b, fun _ => rfl⟩)
    | feed chunk => exact .inr (.inr (.inl ⟨chunk, fun _ => rfl⟩))
    | srst => exact .inr (.inr (.inr fun _ => rfl))
    | _ => exact .inl ⟨_, fun _ => rfl⟩

end Serving

section FrameFetch
variable {bytes : List Byte}

theorem frameInstr_of_exact {i : Instr} (h : decodeFrame bytes = .ok (i, [])) : frameInstr bytes = i := by
  rw [frameInstr, h]

theorem frameInstr_of_inexact (h : ∀ i, decodeFrame bytes ≠ .ok (i, [])) : frameInstr bytes = .decode bytes := by
  unfold frameInstr
  split
  next i hdec => exact absurd hdec (h i)
  · rfl
  · rfl

end FrameFetch

/-- Settles O7: the step function and the request's reading, case by case. -/
theorem stepRunsFetchedInstruction : Obligations.StepRunsFetchedInstruction := by
  refine ⟨fun s h => by rw [step, h], fun s => ?_, fun s r rest h => ⟨step_of_pending h, ?_, ?_, ?_, ?_⟩⟩
  · rcases step_cases s with ⟨-, hs⟩ | ⟨r, rest, -, hs⟩
    · exact ⟨s, hs⟩
    · obtain ⟨t, ht, -⟩ := exec_next (fetchInstr s r) { s with inbox := rest }
      exact ⟨t, hs.trans ht⟩
  · rintro b rfl
    rfl
  · rintro bytes i rfl hdec
    exact frameInstr_of_exact hdec
  · rintro bytes rfl hdec
    exact frameInstr_of_inexact hdec
  · rintro op rfl
    rfl

/-- Settles O6: a reset decoder is idle, so only the comparison with the sync byte selects. -/
theorem powerOnValues : Obligations.PowerOnValues := by
  refine ⟨rfl, rfl, rfl, fun b => ?_⟩
  by_cases hb : b = 0xFF#8
  · subst hb
    rfl
  · rw [if_neg hb]
    exact selectArm_of_stray rfl hb

section Noninterference
variable (r : Result) (b : Byte) (s : State)

/-! The operations that read the decoder's state find the same in it, whatever the last result was. -/

theorem finish_deliver (q : State × Option Packet) : finish (deliver r q.1, q.2) = finish q := rfl

theorem exec_stage_deliver : exec (.stage b) (deliver r s) = exec (.stage b) s := by
  change execStage b (deliver r s) = execStage b s
  unfold execStage
  rw [deliver_cursor, storeByte_deliver]
  split
  · exact (congrArg finish (completing_deliver Config.hw r
      { storeByte Config.hw s.cursor b s with cursor := s.cursor + 1 })).trans (finish_deliver r _)
  · rfl

theorem exec_step_deliver : exec (.step b) (deliver r s) = exec (.step b) s := by
  rw [exec_step_eq_finish, stepByte_deliver, finish_deliver, exec_step_eq_finish]

theorem exec_feed_deliver (chunk : List Byte) : exec (.feed chunk) (deliver r s) = exec (.feed chunk) s := by
  rw [exec_feed, feedBytes_deliver]
  rfl

theorem exec_completeEmit_deliver : exec (.completeEmit b) (deliver r s) = exec (.completeEmit b) s := by
  rw [exec_completeEmit, storing_deliver]
  rfl

theorem exec_completeFail_deliver : exec (.completeFail b) (deliver r s) = exec (.completeFail b) s := by
  rw [exec_completeFail, storing_deliver]
  rfl

end Noninterference

/-- Settles O9: every other instruction overwrites the result without a look at the decoder. -/
theorem resultIsNeverRead : Obligations.ResultIsNeverRead := by
  intro i s r
  change exec i (deliver r s) = exec i s
  cases i with
  | stage b => exact exec_stage_deliver r b s
  | stageLen b => rw [exec_stageLen, exec_stageLen]; rfl
  | completeEmit b => exact exec_completeEmit_deliver r b s
  | completeFail b => exact exec_completeFail_deliver r b s
  | step b => exact exec_step_deliver r b s
  | feed chunk => exact exec_feed_deliver r s chunk
  | _ => rfl

/-- Settles O17: each of these operations hands over a value and does nothing else. -/
theorem pureOperationsFrame : Obligations.PureOperationsFrame := by
  intro i s t h hi
  obtain ⟨res, hres⟩ : ∃ res, exec i s = .next (deliver res s) := by
    rcases hi with hframe | ⟨_, rfl⟩ | ⟨_, _, _, _, rfl⟩ | ⟨_, rfl⟩ | ⟨_, _, rfl⟩ | ⟨_, rfl⟩ | ⟨_, _, rfl⟩ |
      ⟨_, rfl⟩ | ⟨_, rfl⟩ | ⟨_, _, rfl⟩ | ⟨_, _, _, _, rfl⟩
    · cases i with
      | frameCmd | frameCmdCk | frameAck | frameAckCk => exact ⟨_, rfl⟩
      | _ => cases hframe
    all_goals exact ⟨_, rfl⟩
  obtain rfl := Host.Outcome.next.inj (hres.symm.trans h)
  exact ⟨rfl, rfl, rfl, rfl, fun _ => rfl⟩

section SideBySide
variable {ss : Instances} {k j : Nat}

theorem stepInstance_getElem?_ne (h : j ≠ k) : (stepInstance ss k)[j]? = ss[j]? := by
  unfold stepInstance
  split
  · split
    · exact List.getElem?_set_ne h.symm
    · rfl
    · rfl
  · rfl

theorem requestInstance_getElem?_ne (r : Request) (h : j ≠ k) : (requestInstance ss k r)[j]? = ss[j]? := by
  unfold requestInstance
  split
  · exact List.getElem?_set_ne h.symm
  · rfl

end SideBySide

/-- Settles O10: a step and a request replace one entry of the list, and a new codec is put at its end. -/
theorem instancesShareNothing : Obligations.InstancesShareNothing := fun _ _ _ r h =>
  ⟨stepInstance_getElem?_ne h, requestInstance_getElem?_ne r h, fun hj => List.getElem?_append_left hj,
    List.getElem?_concat_length⟩

section Packets
variable {cfg : Config} {s : State} {b : Byte} {p : Packet}

/-- The completion test hands out a packet only from DECODE of what is staged. -/
theorem completing_some (h : (completing cfg s).2 = some p) : decodePacket cfg (staged s) = some p := by
  unfold completing at h
  split at h
  · exact h
  · cases h

/-- STEP hands out a packet only as DECODE of what is staged after its store, and is idle then. -/
theorem stepByte_some (h : (stepByte cfg b s).2 = some p) :
    decodePacket cfg (staged (storing cfg b s)) = some p ∧ (stepByte cfg b s).1 = toIdle (storing cfg b s) := by
  rcases stepByte_cases cfg b s with ⟨-, -, hst⟩ | ⟨-, -, hst⟩ | ⟨-, -, -, hst⟩ | ⟨-, -, -, -, hst⟩ |
    ⟨-, -, -, -, hst⟩
  case inr.inr.inr.inl =>
    rw [hst] at h ⊢
    exact ⟨h, rfl⟩
  all_goals
    rw [hst] at h
    cases h

/-- Every decoded packet is the packet builder's, so it meets the invariant of R70. -/
theorem packetConsistent_of_decodePacket {frame : List Byte} (h : decodePacket Config.hw frame = some p) :
    PacketConsistent p := by
  obtain ⟨b0, b1, f, n, v1, v0, c1, c0, body, rfl⟩ := exists_header (decodePacket_length h)
  obtain ⟨-, -, rfl⟩ := decodePacket_eq_some_iff.mp h
  exact packetConsistent_mkPacket _ _ _ _

theorem packetConsistent_of_stepByte (h : (stepByte Config.hw b s).2 = some p) : PacketConsistent p :=
  packetConsistent_of_decodePacket (stepByte_some h).1

theorem packetConsistent_of_feedBytes {chunk : List Byte} (h : p ∈ (feedBytes Config.hw chunk s).2) :
    PacketConsistent p := by
  induction chunk generalizing s with
  | nil => cases h
  | cons b bs ih =>
    rw [feedBytes_cons] at h
    rcases List.mem_append.mp h with hb | hbs
    · exact packetConsistent_of_stepByte (Option.mem_toList.mp hb)
    · exact ih hbs

theorem packetConsistent_of_exec_stage {t : State} (h : exec (.stage b) s = .next t)
    (hp : p ∈ packetsOf t.result) : PacketConsistent p := by
  change execStage b s = _ at h
  unfold execStage at h
  split at h
  · obtain rfl := Host.Outcome.next.inj h
    exact packetConsistent_of_decodePacket (completing_some (Option.mem_toList.mp hp))
  · obtain rfl := Host.Outcome.next.inj h
    cases hp

end Packets

/-- Settles O18: a result carries packets only from DECODE, from STEP and its arms, or from the packet builder. -/
theorem everyPacketIsConsistent : Obligations.EveryPacketIsConsistent := by
  intro i s t h p hp
  cases i with
  | stage b => exact packetConsistent_of_exec_stage h hp
  | stageLen b =>
    rw [exec_stageLen] at h
    obtain rfl := Host.Outcome.next.inj h
    cases hp
  | completeEmit | frameCmd | frameCmdCk | frameAck | frameAckCk | decode =>
    obtain rfl := Host.Outcome.next.inj h
    exact packetConsistent_of_decodePacket (Option.mem_toList.mp hp)
  | step =>
    obtain rfl := Host.Outcome.next.inj h
    exact packetConsistent_of_stepByte (Option.mem_toList.mp hp)
  | feed =>
    obtain rfl := Host.Outcome.next.inj h
    exact packetConsistent_of_feedBytes hp
  | mkPacket =>
    obtain rfl := Host.Outcome.next.inj h
    obtain rfl := List.mem_singleton.mp hp
    exact packetConsistent_mkPacket _ _ _ _
  | _ =>
    obtain rfl := Host.Outcome.next.inj h
    cases hp

end Sys2Proof.Proofs.Requests
end

section
/-! PROOFS. What every run keeps (spec/10_state.md R20 to R22; spec/20_memory.md R31; spec/41_decoder_fsm.md R109):
the invariant of reachable states, the canonical memory, indistinguishable states and capacities, and the
statements settled from them. -/

namespace Sys2Proof.Proofs.Invariants

open Sys2Proof.Machine Sys2Proof.Safety Sys2Proof.Proofs.DecoderFsm Sys2Proof.Proofs.StepArms
  Sys2Proof.Proofs.Requests

section Memory
variable {cfg : Config} {s : State} {b : Byte}

/-- A store at an offset a frame can have lists no cell above those (R31). -/
theorem storeByte_untouched {off : Nat} (hoff : off ≤ 263) (h : ∀ c ∈ s.buf, c.1 ≤ 263) :
    ∀ c ∈ (storeByte cfg off b s).buf, c.1 ≤ 263 := by
  intro c hc
  rw [storeByte_buf] at hc
  split at hc
  · rcases Memory.mem_write hc with hold | hnew
    · exact h c hold
    · exact hnew ▸ hoff
  · exact h c hc

end Memory

section Invariant
variable {cfg : Config} {s t : State} {b : Byte}

/-- The invariant does not speak of the two ends of the host interface. -/
theorem inv_host_fields (hi : Inv cfg s) (l : List Request) (r : Result) :
    Inv cfg { s with inbox := l, result := r } :=
  ⟨hi.canonical, hi.untouched, hi.unknown, hi.known, hi.bounds, hi.synced, hi.flagged, hi.inside, hi.small⟩

theorem inv_deliver (hi : Inv cfg s) (r : Result) : Inv cfg (deliver r s) := inv_host_fields hi s.inbox r

/-- An idle decoder meets the invariant whatever the last frame left behind. -/
theorem inv_toIdle (hcap : 0 < cfg.cap) (hwf : s.buf.wf = true) (hcells : ∀ c ∈ s.buf, c.1 ≤ 263) :
    Inv cfg (toIdle s) where
  canonical := hwf
  untouched := hcells
  unknown _ := rfl
  known h := absurd h (Nat.not_succ_le_zero _)
  bounds h := absurd h (Nat.not_succ_le_zero _)
  synced h := absurd h (Nat.not_succ_le_zero _)
  flagged h := absurd h (Nat.not_succ_le_zero _)
  inside := hcap
  small := Nat.zero_le _

/-- From the length byte on, a byte stored without completing the frame leaves EXPECTED the staged header's length,
and more of the frame to come. -/
theorem storing_length (hi : Inv cfg s) (h3 : 3 ≤ s.cursor) (hf : frameComplete (storing cfg b s) = false) :
    (storing cfg b s).expected = some (frameLen (storing cfg b s).flags ((storing cfg b s).buf.read offLen)) ∧
      s.cursor + 1 < (frameLen (storing cfg b s).flags ((storing cfg b s).buf.read offLen)).toNat := by
  rw [storing_flags, if_neg (by simp; omega), storing_expected]
  by_cases heq : s.cursor = 3
  · have hread : (storing cfg b s).buf.read offLen = b := by
      rw [storing_buf, heq]
      exact storeByte_read_same b hi.canonical (heq ▸ hi.inside)
    have hmin := (frameLen_bounds s.flags b).1
    rw [if_pos heq, hread]
    exact ⟨rfl, by omega⟩
  · have hread : (storing cfg b s).buf.read offLen = s.buf.read offLen :=
      storeByte_read_ne cfg b s (Ne.symm heq)
    have hknown := hi.known (by omega)
    have hlt := (hi.bounds (by omega)).1
    have hne := mt (frameComplete_storing cfg b s).mpr (Bool.eq_false_iff.mp hf)
    have hdone : (frameLen s.flags (s.buf.read offLen)).toNat ≠ s.cursor + 1 :=
      fun hlen => hne ⟨heq, _, hknown, hlen⟩
    rw [if_neg heq, hread]
    exact ⟨hknown, by omega⟩

/-- A byte stored without completing its frame keeps the invariant, clause by clause (R20). -/
theorem inv_storing (hcap : 264 ≤ cfg.cap) (hi : Inv cfg s) (hidle : ¬ (s.cursor = 0 ∧ b ≠ syncByte))
    (hf : frameComplete (storing cfg b s) = false) : Inv cfg (storing cfg b s) := by
  have hsame : (storing cfg b s).buf.read s.cursor = b := storeByte_read_same b hi.canonical hi.inside
  have hother : ∀ a, a ≠ s.cursor → (storing cfg b s).buf.read a = s.buf.read a :=
    fun _ ha => storeByte_read_ne cfg b s ha
  have hmax := (frameLen_bounds (storing cfg b s).flags ((storing cfg b s).buf.read offLen)).2
  have hsmall : (storing cfg b s).cursor ≤ 263 := by
    rw [storing_cursor]
    by_cases h3 : 3 ≤ s.cursor
    · have := (storing_length hi h3 hf).2
      omega
    · omega
  exact {
    canonical := storeByte_wf cfg _ b hi.canonical
    untouched := storeByte_untouched hi.small hi.untouched
    unknown := fun h => by
      rw [storing_cursor] at h
      rw [storing_expected, if_neg (by simp; omega), hi.unknown (by omega)]
    known := fun h => (storing_length hi (Nat.le_of_succ_le_succ h) hf).1
    bounds := fun h => ⟨(storing_length hi (Nat.le_of_succ_le_succ h) hf).2, by omega⟩
    synced := fun _ => by
      by_cases h0 : s.cursor = 0
      · rw [h0] at hsame
        exact hsame.trans (by_contra fun hb => hidle ⟨h0, hb⟩)
      · rw [hother 0 (Ne.symm h0), hi.synced (by omega)]
    flagged := fun h => by
      rw [storing_cursor] at h
      rw [storing_flags]
      by_cases h2 : s.cursor = 2
      · rw [h2] at hsame
        rw [if_pos h2, offFlags_eq, hsame]
      · rw [if_neg h2, hother offFlags (Ne.symm h2), hi.flagged (by omega)]
    inside := by omega
    small := hsmall }

/-- STEP keeps the invariant at every capacity a frame fits. -/
theorem inv_stepByte (hcap : 264 ≤ cfg.cap) (b : Byte) (hi : Inv cfg s) : Inv cfg (stepByte cfg b s).1 := by
  have hpos : 0 < cfg.cap := by omega
  rcases stepByte_cases cfg b s with ⟨-, -, hst⟩ | ⟨-, -, hst⟩ | ⟨-, -, -, hst⟩ | ⟨-, -, -, -, hst⟩ |
    ⟨-, hidle, -, hf, hst⟩
  · rwa [hst]
  · rw [hst]
    exact inv_toIdle hpos hi.canonical hi.untouched
  · rw [hst]
    exact inv_toIdle hpos (storeByte_wf _ _ _ hi.canonical) (storeByte_untouched (by decide) hi.untouched)
  · rw [hst]
    exact inv_toIdle hpos (storeByte_wf _ _ _ hi.canonical) (storeByte_untouched hi.small hi.untouched)
  · rw [hst]
    exact inv_storing hcap hi hidle hf

theorem inv_feedBytes (hcap : 264 ≤ cfg.cap) (chunk : List Byte) (hi : Inv cfg s) :
    Inv cfg (feedBytes cfg chunk s).1 := by
  induction chunk generalizing s with
  | nil => exact hi
  | cons b bs ih => rw [feedBytes_cons]; exact ih (inv_stepByte hcap b hi)

end Invariant

/-- Settles O54: a reset decoder is idle and lists no cell. -/
theorem resetMeetsInvariant : Obligations.ResetMeetsInvariant :=
  inv_toIdle (s := State.reset) (by decide) reset_memory_wf nofun

/-- Settles O55: serving a request hands out a value, or runs STEP, FEED or a reset, and each keeps the invariant. -/
theorem stepKeepsInvariant : Obligations.StepKeepsInvariant := by
  intro s t hi hstep
  rcases step_cases s with ⟨-, hs⟩ | ⟨r, rest, -, hs⟩
  · obtain rfl := Host.Outcome.next.inj (hs.symm.trans hstep)
    exact hi
  rw [← fetchInstr_inbox s rest] at hs
  have hi' : Inv Config.hw { s with inbox := rest } := inv_host_fields hi rest s.result
  rcases exec_fetchInstr_cases r with ⟨res, hrun⟩ | ⟨b, hrun⟩ | ⟨chunk, hrun⟩ | hrun <;>
    rw [hs, hrun] at hstep <;> obtain rfl := Host.Outcome.next.inj hstep
  · exact inv_deliver hi' res
  · exact inv_deliver (inv_stepByte (by decide) b hi') _
  · exact inv_deliver (inv_feedBytes (by decide) chunk hi') _
  · exact inv_deliver (inv_toIdle (by decide) hi'.canonical hi'.untouched) _

/-- Settles O56: the invariant holds at reset, a host request touches no field of it, and a step keeps it. -/
theorem reachableStatesMeetInvariant : Obligations.ReachableStatesMeetInvariant := by
  intro s hreach
  have hi : Inv Config.hw s := by
    induction hreach with
    | reset => exact resetMeetsInvariant
    | request r s _ ih => exact inv_host_fields ih _ s.result
    | step s t _ hstep ih => exact stepKeepsInvariant s t ih hstep
  exact ⟨hi, Nat.lt_of_le_of_lt hi.small (by decide)⟩

/-- Settles O57: every instruction's stores are `storeByte`'s or a write, which keep the form. -/
theorem memoryStaysCanonical : Obligations.MemoryStaysCanonical := by
  intro i s t hwf h
  cases i with
  | stage b =>
    change execStage b s = _ at h
    unfold execStage at h
    split at h
    · obtain rfl := Host.Outcome.next.inj h
      rw [deliver_buf, completing_frame.2.2]
      exact storeByte_wf Config.hw _ b hwf
    · obtain rfl := Host.Outcome.next.inj h
      exact hwf
  | stageLen b =>
    rw [exec_stageLen] at h
    obtain rfl := Host.Outcome.next.inj h
    exact Memory.wf_write hwf _ b
  | sync | stageFlags | abort =>
    obtain rfl := Host.Outcome.next.inj h
    exact Memory.wf_write hwf _ _
  | completeEmit b | completeFail b =>
    obtain rfl := Host.Outcome.next.inj h
    exact storeByte_wf Config.hw _ b hwf
  | step b =>
    obtain rfl := Host.Outcome.next.inj h
    exact stepByte_wf Config.hw b hwf
  | feed chunk =>
    obtain rfl := Host.Outcome.next.inj h
    exact feedBytes_wf Config.hw chunk hwf
  | _ =>
    obtain rfl := Host.Outcome.next.inj h
    exact hwf

/-- Settles O58: the invariant keeps CURSOR inside, and no frame is longer than 264 bytes. -/
theorem abortAndGuardNeverSelected : Obligations.AbortAndGuardNeverSelected := by
  intro cfg s b hcap hi
  rcases selectArm_cases cfg s b with ⟨-, -, harm, -⟩ | ⟨hfull, -⟩ | ⟨hlong, -⟩ | ⟨-, -, harm, -⟩ | ⟨-, harm, -⟩ |
    ⟨-, -, -, ⟨-, -, harm⟩ | ⟨-, harm⟩ | ⟨-, harm⟩ | ⟨-, -, harm⟩⟩
  case inr.inl =>
    have := hi.inside
    omega
  case inr.inr.inl =>
    have := (frameLen_bounds s.flags b).2
    omega
  all_goals
    rw [harm]
    exact ⟨nofun, nofun⟩

section Capacity
variable {cfg cfg' : Config}

/-- DECODE reads the switch of the configuration and never the capacity. -/
theorem decodePacket_capacity (h : cfg.len255Accept = cfg'.len255Accept) (frame : List Byte) :
    decodePacket cfg frame = decodePacket cfg' frame := by
  have hrefused : lengthRefused cfg = lengthRefused cfg' := by
    unfold lengthRefused
    rw [h]
  unfold decodePacket
  rw [hrefused]

theorem stepByte_capacity {s : State} (hcap : 264 ≤ cfg.cap) (hcap' : 264 ≤ cfg'.cap)
    (h : cfg.len255Accept = cfg'.len255Accept) (hi : Inv cfg s) (b : Byte) :
    stepByte cfg b s = stepByte cfg' b s := by
  by_cases hidle : s.cursor = 0 ∧ b ≠ syncByte
  · rw [stepByte_drop cfg b s hidle.1 hidle.2, stepByte_drop cfg' b s hidle.1 hidle.2]
  · have hc := hi.inside
    have hc' : s.cursor < cfg'.cap := Nat.lt_of_lt_of_le (Nat.lt_succ_of_le hi.small) hcap'
    rw [stepByte_store cfg b s hidle hc (unrepresentable_eq_false b s hcap),
      stepByte_store cfg' b s hidle hc' (unrepresentable_eq_false b s hcap'), storing_of_lt b hc,
      storing_of_lt b hc']
    unfold completing
    rw [decodePacket_capacity h]

end Capacity

/-- Settles O60: byte by byte, each STEP agrees and keeps the invariant. -/
theorem capacityIsUnobservable : Obligations.CapacityIsUnobservable := by
  intro cfg cfg' s chunk hcap hcap' h hi
  induction chunk generalizing s with
  | nil => rfl
  | cons b bs ih =>
    rw [feedBytes_cons, feedBytes_cons, ← stepByte_capacity hcap hcap' h hi b, ih _ (inv_stepByte hcap b hi)]

section DeadState
variable {cfg : Config} {s t : State} {b : Byte}

/-- Agreement does not speak of the two ends of the host interface. -/
theorem agree_host_fields (h : Agree s t) (l l' : List Request) (r r' : Result) :
    Agree { s with inbox := l, result := r } { t with inbox := l', result := r' } :=
  ⟨h.cursor, h.expected, h.bytes, h.flags⟩

theorem agree_deliver (h : Agree s t) (r r' : Result) : Agree (deliver r s) (deliver r' t) :=
  agree_host_fields h s.inbox t.inbox r r'

/-- All idle decoders agree: nothing is staged and FLAGS is not yet read (R22). -/
theorem agree_of_idle (hs : Idle s) (ht : Idle t) : Agree s t where
  cursor := hs.cursor.trans ht.cursor.symm
  expected := hs.expected.trans ht.expected.symm
  bytes a ha := absurd ha (by rw [hs.cursor]; exact Nat.not_lt_zero a)
  flags h := absurd h (by rw [hs.cursor]; decide)

theorem idle_toIdle (s : State) : Idle (toIdle s) := ⟨rfl, rfl⟩

theorem agree_staged (h : Agree s t) : staged s = staged t := by
  rw [staged, staged, ← h.cursor]
  exact Memory.readRange_congr fun i hi => h.bytes (0 + i) (by omega)

theorem agree_frameComplete (h : Agree s t) : frameComplete s = frameComplete t := by
  rw [frameComplete, frameComplete, h.cursor, h.expected]

/-- The same byte stored in two agreeing decoders is a staged byte they agree on. -/
theorem agree_storing (h : Agree s t) (hs : s.buf.wf = true) (ht : t.buf.wf = true) (hc : s.cursor < cfg.cap) :
    Agree (storing cfg b s) (storing cfg b t) where
  cursor := congrArg (· + 1) h.cursor
  expected := by
    rw [storing_expected, storing_expected, ← h.cursor, h.expected]
    by_cases h3 : s.cursor = 3
    · rw [h.flags (by omega)]
    · rw [if_neg h3, if_neg h3]
  bytes a ha := by
    rw [storing_cursor] at ha
    rw [storing_buf, storing_buf, ← h.cursor]
    by_cases heq : a = s.cursor
    · rw [heq, storeByte_read_same b hs hc, storeByte_read_same b ht hc]
    · rw [storeByte_read_ne cfg b s heq, storeByte_read_ne cfg b t heq, h.bytes a (by omega)]
  flags h3 := by
    rw [storing_cursor] at h3
    rw [storing_flags, storing_flags, ← h.cursor]
    by_cases h2 : s.cursor = 2
    · rw [if_pos h2, if_pos h2]
    · rw [if_neg h2, if_neg h2, h.flags (by omega)]

theorem agree_completing (h : Agree s t) :
    Agree (completing cfg s).1 (completing cfg t).1 ∧ (completing cfg s).2 = (completing cfg t).2 := by
  cases hf : frameComplete s with
  | true =>
    rw [completing_of_complete hf, completing_of_complete (agree_frameComplete h ▸ hf), agree_staged h]
    exact ⟨agree_of_idle (idle_toIdle s) (idle_toIdle t), rfl⟩
  | false =>
    rw [completing_of_incomplete hf, completing_of_incomplete (agree_frameComplete h ▸ hf)]
    exact ⟨h, rfl⟩

/-- Two agreeing decoders given the same byte agree again and hand out the same, at a capacity every frame fits. -/
theorem agree_stepByte (hcap : 264 ≤ cfg.cap) (h : Agree s t) (hs : s.buf.wf = true) (ht : t.buf.wf = true) :
    Agree (stepByte cfg b s).1 (stepByte cfg b t).1 ∧ (stepByte cfg b s).2 = (stepByte cfg b t).2 := by
  have hcur := h.cursor
  by_cases hidle : s.cursor = 0 ∧ b ≠ syncByte
  · rw [stepByte_drop cfg b s hidle.1 hidle.2, stepByte_drop cfg b t (hcur ▸ hidle.1) hidle.2]
    exact ⟨h, rfl⟩
  by_cases hc : s.cursor < cfg.cap
  · rw [stepByte_store cfg b s hidle hc (unrepresentable_eq_false b s hcap),
      stepByte_store cfg b t (hcur ▸ hidle) (hcur ▸ hc) (unrepresentable_eq_false b t hcap)]
    exact agree_completing (agree_storing h hs ht hc)
  · rw [stepByte_guard cfg b s (by omega) (by omega), stepByte_guard cfg b t (by omega) (by omega)]
    exact ⟨agree_of_idle (idle_toIdle s) (idle_toIdle t), rfl⟩

theorem agree_feedBytes (hcap : 264 ≤ cfg.cap) (chunk : List Byte) (h : Agree s t) (hs : s.buf.wf = true)
    (ht : t.buf.wf = true) :
    Agree (feedBytes cfg chunk s).1 (feedBytes cfg chunk t).1 ∧
      (feedBytes cfg chunk s).2 = (feedBytes cfg chunk t).2 := by
  induction chunk generalizing s t with
  | nil => exact ⟨h, rfl⟩
  | cons b bs ih =>
    obtain ⟨hstep, hout⟩ := agree_stepByte (b := b) hcap h hs ht
    obtain ⟨hfeed, houts⟩ := ih hstep (stepByte_wf cfg b hs) (stepByte_wf cfg b ht)
    rw [feedBytes_cons, feedBytes_cons, hout, houts]
    exact ⟨hfeed, rfl⟩

theorem stepByte_inbox : (stepByte cfg b s).1.inbox = s.inbox := (stepByte_frame cfg b s).1

theorem feedBytes_inbox (chunk : List Byte) : (feedBytes cfg chunk s).1.inbox = s.inbox := by
  induction chunk generalizing s with
  | nil => rfl
  | cons b bs ih => rw [feedBytes_cons, ih, stepByte_inbox]

end DeadState

/-- Settles O59: a served request hands out a value, or runs STEP, FEED or a reset, and each keeps the agreement. -/
theorem deadStateIsUnobservable : Obligations.DeadStateIsUnobservable := by
  refine ⟨fun s t r rest hs ht h hps hpt => ?_, fun s hs => agree_of_idle hs ⟨rfl, rfl⟩⟩
  have h' : Agree { s with inbox := rest } { t with inbox := rest } :=
    agree_host_fields h rest rest s.result t.result
  rw [step_of_pending hps, step_of_pending hpt, ← fetchInstr_inbox s rest, ← fetchInstr_inbox t rest]
  rcases exec_fetchInstr_cases r with ⟨res, hrun⟩ | ⟨b, hrun⟩ | ⟨chunk, hrun⟩ | hrun
  · rw [hrun, hrun]
    exact ⟨_, _, rfl, rfl, agree_deliver h' res res, rfl, rfl, hs, ht⟩
  · rw [hrun, hrun, exec_step, exec_step]
    obtain ⟨hagree, hout⟩ := agree_stepByte (b := b) (cfg := Config.hw) (by decide) h' hs ht
    refine ⟨_, _, rfl, rfl, agree_deliver hagree _ _, congrArg Result.emitted hout, ?_, ?_⟩
    · rw [deliver_inbox, deliver_inbox, stepByte_inbox, stepByte_inbox]
    · exact ⟨stepByte_wf Config.hw b hs, stepByte_wf Config.hw b ht⟩
  · rw [hrun, hrun, exec_feed, exec_feed]
    obtain ⟨hagree, houts⟩ := agree_feedBytes (cfg := Config.hw) (by decide) chunk h' hs ht
    refine ⟨_, _, rfl, rfl, agree_deliver hagree _ _, congrArg Result.packets houts, ?_, ?_⟩
    · rw [deliver_inbox, deliver_inbox, feedBytes_inbox, feedBytes_inbox]
    · exact ⟨feedBytes_wf Config.hw chunk hs, feedBytes_wf Config.hw chunk ht⟩
  · rw [hrun, hrun]
    exact ⟨_, _, rfl, rfl, agree_of_idle ⟨rfl, rfl⟩ ⟨rfl, rfl⟩, rfl, rfl, hs, ht⟩

end Sys2Proof.Proofs.Invariants
end

section
/-! PROOFS. Streams (spec/41_decoder_fsm.md sections 4 and 5; spec/42_frame_decode.md section 4): FEED of whole
frames, of frames with stray bytes between them and of corrupted ones, its bounds, SRST, and the statements settled
from them. -/

namespace Sys2Proof.Proofs.Streams

open Sys2Proof.Machine Sys2Proof.Safety Sys2Proof.Proofs.DecoderFsm Sys2Proof.Proofs.FrameDecode
  Sys2Proof.Proofs.Checksum Sys2Proof.Proofs.StepArms Sys2Proof.Proofs.RoundTrip Sys2Proof.Proofs.Requests
  Sys2Proof.Proofs.Invariants

section Feed
variable {cfg : Config} {s : State}

/-- FEED of two chunks joined is FEED of the one and then of the other. -/
theorem feedBytes_append (a c : List Byte) :
    feedBytes cfg (a ++ c) s = ((feedBytes cfg c (feedBytes cfg a s).1).1,
      (feedBytes cfg a s).2 ++ (feedBytes cfg c (feedBytes cfg a s).1).2) := by
  induction a generalizing s with
  | nil => rfl
  | cons b bs ih => rw [List.cons_append, feedBytes_cons, feedBytes_cons, ih, List.append_assoc]

/-- CURSOR starts below every cell the chunk cannot reach, and rises by one a byte at most. -/
theorem feedBytes_read_of_ge {chunk : List Byte} {a : Nat} (h : s.cursor + chunk.length ≤ a) :
    (feedBytes cfg chunk s).1.buf.read a = s.buf.read a := by
  induction chunk generalizing s with
  | nil => rfl
  | cons b bs ih =>
    rw [List.length_cons] at h
    obtain ⟨-, -, -, hread, hcur⟩ := stepByte_frame cfg b s
    rw [feedBytes_cons, ih (by omega), hread a (by omega)]

/-- Under the invariant no byte is stored above offset 263. -/
theorem feedBytes_read_of_inv {chunk : List Byte} {a : Nat} (hcap : 264 ≤ cfg.cap) (hi : Inv cfg s) (ha : 263 < a) :
    (feedBytes cfg chunk s).1.buf.read a = s.buf.read a := by
  induction chunk generalizing s with
  | nil => rfl
  | cons b bs ih =>
    have hsmall := hi.small
    obtain ⟨-, -, -, hread, -⟩ := stepByte_frame cfg b s
    rw [feedBytes_cons, ih (inv_stepByte hcap b hi), hread a (by omega)]

end Feed

/-- Settles O45. -/
theorem feedFrame : Obligations.FeedFrame := by
  intro chunk s t h
  rw [exec_feed] at h
  obtain rfl := Host.Outcome.next.inj h
  exact ⟨feedBytes_inbox chunk, fun _ => feedBytes_read_of_ge, fun hi _ => feedBytes_read_of_inv (by decide) hi⟩

/-- Settles O46: SRST leaves an idle decoder, and all idle decoders agree. -/
theorem srstReturnsToIdle : Obligations.SrstReturnsToIdle := by
  refine fun s => ⟨exec_srst s, fun t h => ?_⟩
  obtain rfl := Host.Outcome.next.inj h
  exact ⟨agree_of_idle ⟨rfl, rfl⟩ ⟨rfl, rfl⟩, fun hs => ⟨hs.cursor, hs.expected, rfl, fun _ => rfl⟩⟩

/-- Settles O48: the second FEED starts where the first ends but for the result, which it never reads. -/
theorem chunkingChangesNothing : Obligations.ChunkingChangesNothing := by
  intro s a c
  refine ⟨_, _, _, _, exec_feed s a, rfl, exec_feed _ c, rfl, ?_⟩
  rw [exec_feed, feedBytes_append, feedBytes_deliver]
  rfl

section Bounds
variable {cfg : Config} {s : State} {b : Byte}

/-- A packet uses up at least 8 staged bytes, and CURSOR counts every byte staged. -/
theorem stepByte_count :
    8 * (stepByte cfg b s).2.toList.length + (stepByte cfg b s).1.cursor ≤ s.cursor + 1 := by
  cases hout : (stepByte cfg b s).2 with
  | none =>
    have hcur := (stepByte_frame cfg b s).2.2.2.2
    simpa using hcur
  | some p =>
    obtain ⟨hdec, hidle⟩ := stepByte_some hout
    have hlen := decodePacket_length hdec
    rw [staged, Memory.readRange_length, storing_cursor] at hlen
    rw [hidle, toIdle_cursor]
    exact hlen

theorem feedBytes_count (chunk : List Byte) :
    8 * (feedBytes cfg chunk s).2.length + (feedBytes cfg chunk s).1.cursor ≤ chunk.length + s.cursor := by
  induction chunk generalizing s with
  | nil => simp
  | cons b bs ih =>
    have hstep := stepByte_count (cfg := cfg) (s := s) (b := b)
    have hrest := ih (s := (stepByte cfg b s).1)
    rw [feedBytes_cons, List.length_append, List.length_cons]
    dsimp only
    omega

end Bounds

/-- Settles O52: every packet is paid for with 8 bytes counted by CURSOR. -/
theorem packetsNeedEightBytes : Obligations.PacketsNeedEightBytes := by
  refine ⟨fun s t b p h hp => ?_, fun s t chunk ps h hps => ?_⟩
  · rw [exec_step] at h
    obtain rfl := Host.Outcome.next.inj h
    have hout : (stepByte Config.hw b s).2 = some p := Result.emitted.inj hp
    have hcount := stepByte_count (cfg := Config.hw) (s := s) (b := b)
    rw [hout, Option.toList_some, List.length_singleton] at hcount
    omega
  · rw [exec_feed] at h
    obtain rfl := Host.Outcome.next.inj h
    obtain rfl : (feedBytes Config.hw chunk s).2 = ps := Result.packets.inj hps
    have hcount := feedBytes_count (cfg := Config.hw) (s := s) chunk
    omega

section Completion
variable {s : State} {b : Byte}

/-- A sequence exactly as long as it declares fails DECODE only on its checksum. -/
theorem decodePacket_eq_none_iff {frame : List Byte} {f n : Byte} (h2 : frame[2]? = some f)
    (h3 : frame[3]? = some n) (hlen : frame.length = (frameLen f n).toNat) :
    decodePacket Config.hw frame = none ↔ f.getLsbD 0 = true ∧ xor8 frame ≠ 0x00#8 := by
  have hmin := (frameLen_bounds f n).1
  obtain ⟨b0, b1, f', n', v1, v0, c1, c0, body, rfl⟩ := exists_header (hlen ▸ hmin)
  obtain rfl : f' = f := Option.some.inj h2
  obtain rfl : n' = n := Option.some.inj h3
  have hfit : ¬ body.length + 8 < (frameLen f' n').toNat := by
    rw [← hlen]
    simp
  rw [decodePacket_cons, lengthRefused_hw, if_neg Bool.false_ne_true, if_neg hfit]
  simp [ckPresent]

/-- Under the invariant the bytes of a completing frame are as long as their own header declares. -/
theorem decodePacket_completing (hi : Inv Config.hw s) {e : BitVec 9} (he : s.expected = some e)
    (hlen : e.toNat = s.cursor + 1) : decodePacket Config.hw (staged s ++ [b]) = none ↔
      s.flags.getLsbD 0 = true ∧ xor8 (staged s ++ [b]) ≠ 0x00#8 := by
  have h4 := (bounds_of_known hi he).1
  have hcell : ∀ a, a < s.cursor → (staged s ++ [b])[a]? = some (s.buf.read a) := fun a ha => by
    rw [List.getElem?_append_left (by simpa [staged] using ha), staged, Memory.readRange_getElem? _ _ ha,
      Nat.zero_add]
  have h2 := hcell 2 (by omega)
  rw [← offFlags_eq, ← hi.flagged (by omega)] at h2
  refine decodePacket_eq_none_iff h2 (hcell 3 (by omega)) ?_
  rw [hi.known h4, Option.some.injEq] at he
  rw [← offLen_eq, he, hlen]
  simp [staged]

end Completion

/-- Settles O53: DECODE's answer selects between the two completing arms. -/
theorem onlyChecksumFailsInStep : Obligations.OnlyChecksumFailsInStep := by
  rintro s b hi ⟨e, he, hlen⟩
  have h4 := (bounds_of_known hi he).1
  have harm := selectArm_of_complete (b := b) (by omega) hi.inside (unrepresentable_of_ne (by omega))
    ((frameComplete_storing Config.hw b s).mpr ⟨by omega, e, he, hlen⟩) hi.canonical
  have hfails := decodePacket_completing (b := b) hi he hlen
  cases hdec : decodePacket Config.hw (staged s ++ [b]) with
  | none =>
    have hbad := hfails.mp hdec
    rw [harm, hdec]
    exact ⟨iff_of_true rfl hbad, iff_of_false nofun (not_not.mpr hbad)⟩
  | some p =>
    have hgood := mt hfails.mpr (by rw [hdec]; nofun)
    rw [harm, hdec]
    exact ⟨iff_of_false nofun hgood, iff_of_true rfl hgood⟩

section Frames
variable {cfg : Config} {s : State} {c : Command}

theorem encodeFrame_command (hp : c.payload.length ≤ 254) :
    encodeFrame c.vendor c.command c.payload c.flags = .ok c.frame := by
  rw [Command.frame, encodeFrame_ok _ _ _ hp]

/-- A command's frame: four bytes up to the length byte, and as many more as they declare. -/
theorem commandFrame_shape (hp : c.payload.length ≤ 254) : ∃ n body,
    c.frame = [syncByte, versionByte, c.flags, n] ++ body ∧ body.length + 4 = (frameLen c.flags n).toNat := by
  have henc := encodeFrame_command hp
  obtain ⟨-, -, -, ⟨n, -, h3, hlen⟩, -⟩ := encodedFrameDeclaresItsLength _ _ _ _ _ henc
  obtain ⟨-, tail, -, hframe, -⟩ := encodeFrame_layout henc
  rw [wireFrame_eq] at hframe
  rw [hframe] at h3 hlen
  obtain rfl := Option.some.inj h3
  exact ⟨_, _, hframe, hlen.symm⟩

/-- The bytes after the length byte, short of the last one the frame declares, give nothing. -/
theorem feedBytes_body_unfinished {x : BitVec 9} {bytes body : List Byte} (h : Staging s bytes (some x))
    (h4 : 4 ≤ bytes.length) (hcap : x.toNat ≤ cfg.cap) (hlen : bytes.length + body.length < x.toNat) :
    (feedBytes cfg body s).2 = [] := by
  induction body generalizing s bytes with
  | nil => rfl
  | cons b bs ih =>
    rw [List.length_cons] at hlen
    rw [h.feedBytes_cons (by omega) (by omega) (by rintro rfl; simp at h4) (by rintro _ ⟨⟩; omega)]
    refine ih (h.storing_of_ne (by omega) (by omega)) ?_ ?_
    · simp; omega
    · simp; omega

/-- A command's frame fed to an idle decoder gives its packet and leaves the decoder idle. -/
theorem feedBytes_command (hcap : 264 ≤ cfg.cap) (hp : c.payload.length ≤ 254) (hs : Idle s)
    (hwf : s.buf.wf = true) :
    (feedBytes cfg c.frame s).2 = [c.packet] ∧ Idle (feedBytes cfg c.frame s).1 := by
  have hdec := decodePacket_encodeFrame cfg (encodeFrame_command hp)
  obtain ⟨n, body, hframe, hlen⟩ := commandFrame_shape hp
  obtain ⟨hout, hidle⟩ := feedBytes_frame (v := versionByte) hcap hs hwf hlen
  rw [hframe] at hdec ⊢
  exact ⟨hout.trans (congrArg Option.toList hdec), hidle⟩

/-- Up to its last byte a command's frame gives nothing. -/
theorem feedBytes_command_dropLast (hcap : 264 ≤ cfg.cap) (hp : c.payload.length ≤ 254) (hs : Idle s)
    (hwf : s.buf.wf = true) : (feedBytes cfg c.frame.dropLast s).2 = [] := by
  obtain ⟨n, body, hframe, hlen⟩ := commandFrame_shape hp
  obtain ⟨hmin, hmax⟩ := frameLen_bounds c.flags n
  obtain ⟨t, ht, hfeed⟩ := feedBytes_header (v := versionByte) (f := c.flags) (n := n) hcap hs hwf
  have hbody : body ≠ [] := by rintro rfl; simp at hlen; omega
  rw [hframe, List.dropLast_append_of_ne_nil hbody]
  refine (congrArg Prod.snd (hfeed _)).trans (feedBytes_body_unfinished ht (by simp) (by omega) ?_)
  simp; omega

/-- No other last byte makes the exclusive-or zero. -/
theorem xor8_replace_last {frame : List Byte} {last : Byte} (hne : frame ≠ []) (hsum : xor8 frame = 0x00#8)
    (hlast : frame.getLast? ≠ some last) : xor8 (frame.dropLast ++ [last]) ≠ 0x00#8 := by
  rw [← List.dropLast_append_getLast hne, xor8_concat_eq_zero_iff] at hsum
  rw [ne_eq, xor8_concat_eq_zero_iff, hsum]
  rintro rfl
  exact hlast (List.getLast?_eq_some_getLast hne)

/-- A checksummed frame whose last byte is replaced by another gives nothing and leaves the decoder idle. -/
theorem feedBytes_bad_checksum {last : Byte} (hp : c.payload.length ≤ 254) (hs : Idle s) (hwf : s.buf.wf = true)
    (hck : c.flags.getLsbD 0 = true) (hlast : c.frame.getLast? ≠ some last) :
    (feedBytes Config.hw (c.frame.dropLast ++ [last]) s).2 = [] ∧
      Idle (feedBytes Config.hw (c.frame.dropLast ++ [last]) s).1 := by
  obtain ⟨n, body, hframe, hlen⟩ := commandFrame_shape hp
  obtain ⟨-, -, -, -, hsum⟩ := encodeFrame_layout (encodeFrame_command hp)
  have hmin := (frameLen_bounds c.flags n).1
  have hbody : body ≠ [] := by rintro rfl; simp at hlen; omega
  have hwrong := xor8_replace_last (by rw [hframe]; simp) (hsum hck) hlast
  rw [hframe, List.dropLast_append_of_ne_nil hbody, List.append_assoc] at hwrong ⊢
  have hlen' : (body.dropLast ++ [last]).length + 4 = (frameLen c.flags n).toNat := by
    have hpos := List.length_pos_iff.mpr hbody
    rw [List.length_append, List.length_dropLast, List.length_singleton]
    omega
  obtain ⟨hout, hidle⟩ := feedBytes_frame (cfg := Config.hw) (v := versionByte) (by decide) hs hwf hlen'
  have hdec := decodePacket_eq_none_of_xor8 rfl hck hwrong
  exact ⟨hout.trans (congrArg Option.toList hdec), hidle⟩

end Frames

/-- Settles O49: the whole frame decodes to its command's packet, and no frame completes before its last byte. -/
theorem encodedFrameGivesOnePacket : Obligations.EncodedFrameGivesOnePacket := by
  intro cfg c s hcap hp hs hwf
  have hcap' : 264 ≤ cfg.cap := Nat.le_trans (by decide) hcap
  obtain ⟨hout, hidle⟩ := feedBytes_command hcap' hp hs hwf
  exact ⟨hout, hidle, feedBytes_command_dropLast hcap' hp hs hwf⟩

/-- Settles O51: after the corrupted frame the decoder is idle, and the next frame is fed as to any idle decoder. -/
theorem badChecksumCostsOneFrame : Obligations.BadChecksumCostsOneFrame := by
  intro c d last s hs hwf hck hc hd hlast
  obtain ⟨hbad, hidle⟩ := feedBytes_bad_checksum hc hs hwf hck hlast
  obtain ⟨hgood, hidle'⟩ := feedBytes_command (cfg := Config.hw) (by decide) hd hidle (feedBytes_wf Config.hw _ hwf)
  refine ⟨⟨_, exec_feed s _, congrArg Result.packets hbad, hidle.cursor, hidle.expected⟩, _, exec_feed s _, ?_, ?_⟩
  · rw [deliver_result, feedBytes_append, hbad, hgood]
    rfl
  · rw [feedBytes_append]
    exact ⟨hidle'.cursor, hidle'.expected⟩

/-- A conforming stream, item by item: stray bytes are dropped and the frame gives its packet. -/
theorem feedBytes_conformingStream {cfg : Config} {items : List (List Byte × Command)} {s : State}
    (hcap : 264 ≤ cfg.cap) (hs : Idle s) (hwf : s.buf.wf = true)
    (h : ∀ x ∈ items, (∀ b ∈ x.1, b ≠ 0xFF#8) ∧ x.2.payload.length ≤ 254) :
    (feedBytes cfg (conformingStream items) s).2 = items.map (·.2.packet) ∧
      Idle (feedBytes cfg (conformingStream items) s).1 := by
  induction items generalizing s with
  | nil => exact ⟨rfl, hs⟩
  | cons x items ih =>
    obtain ⟨⟨hnoise, hp⟩, hitems⟩ := List.forall_mem_cons.mp h
    obtain ⟨noise, c⟩ := x
    obtain ⟨hout, hidle⟩ := feedBytes_command hcap hp hs hwf
    obtain ⟨houts, hidle'⟩ := ih hidle (feedBytes_wf cfg c.frame hwf) hitems
    rw [conformingStream, List.append_assoc, feedBytes_append, feedBytes_stray hs.cursor hnoise, feedBytes_append,
      hout, houts]
    exact ⟨rfl, hidle'⟩

/-- Settles O50. -/
theorem conformingStreamGivesItsPackets : Obligations.ConformingStreamGivesItsPackets := by
  intro items s hs hwf h
  obtain ⟨houts, hidle⟩ := feedBytes_conformingStream (cfg := Config.hw) (by decide) hs hwf h
  exact ⟨_, exec_feed s _, congrArg Result.packets houts, hidle.cursor, hidle.expected⟩

end Sys2Proof.Proofs.Streams
end
